-- ==== Sys2Proof/Word.lean ====
section
/-! DEFINITION. The widths of the CHIP-8 core's values (spec/00_scope.md rules R8 and R9). -/

namespace Sys2Proof

/-- An 8-bit value: a general register, a timer, a memory byte, a key entry (R9). -/
abbrev Byte := BitVec 8

/-- A 16-bit value: `I`, `pc`, a stack slot, an opcode word (R9, R80). -/
abbrev Word := BitVec 16

/-- The 12-bit `addr` field of an opcode word (R83). -/
abbrev Addr12 := BitVec 12

/-- The 4-bit `nibble` field of an opcode word (R83). -/
abbrev Nibble := BitVec 4

/-- One value in {0,1}: a pixel of the frame buffer, the dirty flag (R34, R35). -/
abbrev Bit := BitVec 1

/-- The number of a general register, V0 to VF (R20): every 4-bit field names one (R84). -/
abbrev Reg := Fin 16

/-- The flag register VF (R21). -/
abbrev vf : Reg := 15

end Sys2Proof
end

