-- ==== Sys2Proof/Syntax.lean ====
section
/-! DEFINITION. The 35 instructions of the opcode table (spec/30_encoding.md R94), one constructor per row, in the table's
order, each with the fields R82 and R85 give it. -/

namespace Sys2Proof

/-- One instruction of the CHIP-8 opcode table. `x` and `y` are register numbers, `addr`, `byte` and `nibble` the fields of
R83. -/
inductive Instr where
  /-- `CLS` (R110). -/
  | cls
  /-- `RET` (R111). -/
  | ret
  /-- `SYS addr` (R112). -/
  | sys (addr : Addr12)
  /-- `JP addr` (R113). -/
  | jp (addr : Addr12)
  /-- `CALL addr` (R114). -/
  | call (addr : Addr12)
  /-- `SE Vx, byte` (R115). -/
  | seByte (x : Reg) (byte : Byte)
  /-- `SNE Vx, byte` (R116). -/
  | sneByte (x : Reg) (byte : Byte)
  /-- `SE Vx, Vy` (R117). -/
  | seReg (x y : Reg)
  /-- `LD Vx, byte` (R130). -/
  | ldByte (x : Reg) (byte : Byte)
  /-- `ADD Vx, byte` (R131). -/
  | addByte (x : Reg) (byte : Byte)
  /-- `LD Vx, Vy` (R132). -/
  | ldReg (x y : Reg)
  /-- `OR Vx, Vy` (R134). -/
  | orReg (x y : Reg)
  /-- `AND Vx, Vy` (R135). -/
  | andReg (x y : Reg)
  /-- `XOR Vx, Vy` (R136). -/
  | xorReg (x y : Reg)
  /-- `ADD Vx, Vy` (R137). -/
  | addReg (x y : Reg)
  /-- `SUB Vx, Vy` (R138). -/
  | sub (x y : Reg)
  /-- `SHR Vx, Vy` (R139). -/
  | shr (x y : Reg)
  /-- `SUBN Vx, Vy` (R140). -/
  | subn (x y : Reg)
  /-- `SHL Vx, Vy` (R141). -/
  | shl (x y : Reg)
  /-- `SNE Vx, Vy` (R118). -/
  | sneReg (x y : Reg)
  /-- `LD I, addr` (R150). -/
  | ldI (addr : Addr12)
  /-- `JP V0, addr` (R119). -/
  | jpV0 (addr : Addr12)
  /-- `RND Vx, byte` (R160). -/
  | rnd (x : Reg) (byte : Byte)
  /-- `DRW Vx, Vy, nibble` (R161). -/
  | drw (x y : Reg) (nibble : Nibble)
  /-- `SKP Vx` (R170). -/
  | skp (x : Reg)
  /-- `SKNP Vx` (R171). -/
  | sknp (x : Reg)
  /-- `LD Vx, DT` (R180). -/
  | ldVxDt (x : Reg)
  /-- `LD Vx, K` (R172). -/
  | ldVxK (x : Reg)
  /-- `LD DT, Vx` (R181). -/
  | ldDtVx (x : Reg)
  /-- `LD ST, Vx` (R182). -/
  | ldStVx (x : Reg)
  /-- `ADD I, Vx` (R151). -/
  | addI (x : Reg)
  /-- `LD F, Vx` (R152). -/
  | ldF (x : Reg)
  /-- `LD B, Vx` (R153). -/
  | ldB (x : Reg)
  /-- `LD [I], Vx` (R154). -/
  | storeRegs (x : Reg)
  /-- `LD Vx, [I]` (R155). -/
  | loadRegs (x : Reg)
  deriving DecidableEq, Repr

end Sys2Proof
end

