-- ==== Sys2Proof/WellFormed.lean ====
section
/-! DEFINITION. Which instructions some opcode word spells. The field types already hold every field in its range; the one
check left is that of spec/30_encoding.md R88: the words 0x00E0 and 0x00EE select CLS and RET, so no word spells
`SYS 0x0E0` or `SYS 0x0EE`. -/

namespace Sys2Proof

/-- Some opcode word decodes to the instruction (R88, R94). -/
def Instr.wellFormed : Instr → Bool
  | .sys addr => addr != 0x0E0 && addr != 0x0EE
  | .cls => true
  | .ret => true
  | .jp _ => true
  | .call _ => true
  | .seByte _ _ => true
  | .sneByte _ _ => true
  | .seReg _ _ => true
  | .ldByte _ _ => true
  | .addByte _ _ => true
  | .ldReg _ _ => true
  | .orReg _ _ => true
  | .andReg _ _ => true
  | .xorReg _ _ => true
  | .addReg _ _ => true
  | .sub _ _ => true
  | .shr _ _ => true
  | .subn _ _ => true
  | .shl _ _ => true
  | .sneReg _ _ => true
  | .ldI _ => true
  | .jpV0 _ => true
  | .rnd _ _ => true
  | .drw _ _ _ => true
  | .skp _ => true
  | .sknp _ => true
  | .ldVxDt _ => true
  | .ldVxK _ => true
  | .ldDtVx _ => true
  | .ldStVx _ => true
  | .addI _ => true
  | .ldF _ => true
  | .ldB _ => true
  | .storeRegs _ => true
  | .loadRegs _ => true

end Sys2Proof
end

