-- ==== Sys2Proof/Decode.lean ====
section
/-! DEFINITION. Decoding: the fields of spec/30_encoding.md R83, the opcode table of R94 walked in priority order (R87), the
total decoder of bytes, and the encoder written from the same table. -/

namespace Sys2Proof

/-- `addr = w[11:0]` (R83). -/
def addrField (w : Word) : Addr12 := w.extractLsb' 0 12

/-- `byte = w[7:0]` (R83). -/
def byteField (w : Word) : Byte := w.extractLsb' 0 8

/-- `nibble = w[3:0]` (R83). -/
def nibbleField (w : Word) : Nibble := w.extractLsb' 0 4

/-- A 4-bit field read as a register number (R84). -/
def regOfBits (b : BitVec 4) : Reg := ⟨b.toNat, b.isLt⟩

/-- A register number as the 4 bits of its field. -/
def regBits (r : Reg) : BitVec 4 := BitVec.ofNat 4 r.val

/-- `x = w[11:8]` (R83). -/
def xField (w : Word) : Reg := regOfBits (w.extractLsb' 8 4)

/-- `y = w[7:4]` (R83). -/
def yField (w : Word) : Reg := regOfBits (w.extractLsb' 4 4)

/-- One row of the opcode table: its fixed bits under its mask, and the instruction its fields give. -/
structure OpcodeRow where
  pattern : Word
  mask    : Word
  build   : Word → Instr

/-- Positions 1 to 8 of R94. -/
def opcodeRowsA : List OpcodeRow :=
  [ ⟨0x00E0, 0xFFFF, fun _ => .cls⟩,
    ⟨0x00EE, 0xFFFF, fun _ => .ret⟩,
    ⟨0x0000, 0xF000, fun w => .sys (addrField w)⟩,
    ⟨0x1000, 0xF000, fun w => .jp (addrField w)⟩,
    ⟨0x2000, 0xF000, fun w => .call (addrField w)⟩,
    ⟨0x3000, 0xF000, fun w => .seByte (xField w) (byteField w)⟩,
    ⟨0x4000, 0xF000, fun w => .sneByte (xField w) (byteField w)⟩,
    ⟨0x5000, 0xF00F, fun w => .seReg (xField w) (yField w)⟩ ]

/-- Positions 9 to 19 of R94. -/
def opcodeRowsB : List OpcodeRow :=
  [ ⟨0x6000, 0xF000, fun w => .ldByte (xField w) (byteField w)⟩,
    ⟨0x7000, 0xF000, fun w => .addByte (xField w) (byteField w)⟩,
    ⟨0x8000, 0xF00F, fun w => .ldReg (xField w) (yField w)⟩,
    ⟨0x8001, 0xF00F, fun w => .orReg (xField w) (yField w)⟩,
    ⟨0x8002, 0xF00F, fun w => .andReg (xField w) (yField w)⟩,
    ⟨0x8003, 0xF00F, fun w => .xorReg (xField w) (yField w)⟩,
    ⟨0x8004, 0xF00F, fun w => .addReg (xField w) (yField w)⟩,
    ⟨0x8005, 0xF00F, fun w => .sub (xField w) (yField w)⟩,
    ⟨0x8006, 0xF00F, fun w => .shr (xField w) (yField w)⟩,
    ⟨0x8007, 0xF00F, fun w => .subn (xField w) (yField w)⟩,
    ⟨0x800E, 0xF00F, fun w => .shl (xField w) (yField w)⟩ ]

/-- Positions 20 to 26 of R94. -/
def opcodeRowsC : List OpcodeRow :=
  [ ⟨0x9000, 0xF00F, fun w => .sneReg (xField w) (yField w)⟩,
    ⟨0xA000, 0xF000, fun w => .ldI (addrField w)⟩,
    ⟨0xB000, 0xF000, fun w => .jpV0 (addrField w)⟩,
    ⟨0xC000, 0xF000, fun w => .rnd (xField w) (byteField w)⟩,
    ⟨0xD000, 0xF000, fun w => .drw (xField w) (yField w) (nibbleField w)⟩,
    ⟨0xE09E, 0xF0FF, fun w => .skp (xField w)⟩,
    ⟨0xE0A1, 0xF0FF, fun w => .sknp (xField w)⟩ ]

/-- Positions 27 to 35 of R94. -/
def opcodeRowsD : List OpcodeRow :=
  [ ⟨0xF007, 0xF0FF, fun w => .ldVxDt (xField w)⟩,
    ⟨0xF00A, 0xF0FF, fun w => .ldVxK (xField w)⟩,
    ⟨0xF015, 0xF0FF, fun w => .ldDtVx (xField w)⟩,
    ⟨0xF018, 0xF0FF, fun w => .ldStVx (xField w)⟩,
    ⟨0xF01E, 0xF0FF, fun w => .addI (xField w)⟩,
    ⟨0xF029, 0xF0FF, fun w => .ldF (xField w)⟩,
    ⟨0xF033, 0xF0FF, fun w => .ldB (xField w)⟩,
    ⟨0xF055, 0xF0FF, fun w => .storeRegs (xField w)⟩,
    ⟨0xF065, 0xF0FF, fun w => .loadRegs (xField w)⟩ ]

/-- The opcode table, 35 rows in priority order (R94). -/
def opcodeTable : List OpcodeRow := opcodeRowsA ++ opcodeRowsB ++ opcodeRowsC ++ opcodeRowsD

/-- `(w AND mask) = pattern` (R87). -/
def OpcodeRow.matchesWord (r : OpcodeRow) (w : Word) : Bool := w &&& r.mask == r.pattern

/-- The instruction of the first row that matches the word, or none: the word is unknown (R87, R95). -/
def decode (w : Word) : Option Instr :=
  (opcodeTable.find? fun r => r.matchesWord w).map fun r => r.build w

/-- What decoding bytes answers. -/
inductive Decoded where
  /-- An instruction and the bytes after it. -/
  | ok (i : Instr) (rest : List Byte)
  /-- The first word matches no row (R95). -/
  | unknownOpcode (w : Word)
  /-- Fewer than two bytes: no opcode word (R80). -/
  | truncated
  deriving DecidableEq, Repr

/-- Decode the instruction at the head of a list of bytes, high byte first (R53, R81). -/
def decodeBytes : List Byte → Decoded
  | hi :: lo :: rest =>
    match decode (hi ++ lo) with
    | some i => .ok i rest
    | none => .unknownOpcode (hi ++ lo)
  | [_] => .truncated
  | [] => .truncated

/-- The opcode word of an instruction, field by field from bit 15 down (R82, R94). SHR and SHL keep `y` (R98). -/
def encode : Instr → Word
  | .cls => 0x00E0
  | .ret => 0x00EE
  | .sys addr => 0x0#4 ++ addr
  | .jp addr => 0x1#4 ++ addr
  | .call addr => 0x2#4 ++ addr
  | .seByte x byte => 0x3#4 ++ regBits x ++ byte
  | .sneByte x byte => 0x4#4 ++ regBits x ++ byte
  | .seReg x y => 0x5#4 ++ regBits x ++ regBits y ++ 0x0#4
  | .ldByte x byte => 0x6#4 ++ regBits x ++ byte
  | .addByte x byte => 0x7#4 ++ regBits x ++ byte
  | .ldReg x y => 0x8#4 ++ regBits x ++ regBits y ++ 0x0#4
  | .orReg x y => 0x8#4 ++ regBits x ++ regBits y ++ 0x1#4
  | .andReg x y => 0x8#4 ++ regBits x ++ regBits y ++ 0x2#4
  | .xorReg x y => 0x8#4 ++ regBits x ++ regBits y ++ 0x3#4
  | .addReg x y => 0x8#4 ++ regBits x ++ regBits y ++ 0x4#4
  | .sub x y => 0x8#4 ++ regBits x ++ regBits y ++ 0x5#4
  | .shr x y => 0x8#4 ++ regBits x ++ regBits y ++ 0x6#4
  | .subn x y => 0x8#4 ++ regBits x ++ regBits y ++ 0x7#4
  | .shl x y => 0x8#4 ++ regBits x ++ regBits y ++ 0xE#4
  | .sneReg x y => 0x9#4 ++ regBits x ++ regBits y ++ 0x0#4
  | .ldI addr => 0xA#4 ++ addr
  | .jpV0 addr => 0xB#4 ++ addr
  | .rnd x byte => 0xC#4 ++ regBits x ++ byte
  | .drw x y nibble => 0xD#4 ++ regBits x ++ regBits y ++ nibble
  | .skp x => 0xE#4 ++ regBits x ++ 0x9E#8
  | .sknp x => 0xE#4 ++ regBits x ++ 0xA1#8
  | .ldVxDt x => 0xF#4 ++ regBits x ++ 0x07#8
  | .ldVxK x => 0xF#4 ++ regBits x ++ 0x0A#8
  | .ldDtVx x => 0xF#4 ++ regBits x ++ 0x15#8
  | .ldStVx x => 0xF#4 ++ regBits x ++ 0x18#8
  | .addI x => 0xF#4 ++ regBits x ++ 0x1E#8
  | .ldF x => 0xF#4 ++ regBits x ++ 0x29#8
  | .ldB x => 0xF#4 ++ regBits x ++ 0x33#8
  | .storeRegs x => 0xF#4 ++ regBits x ++ 0x55#8
  | .loadRegs x => 0xF#4 ++ regBits x ++ 0x65#8

/-- The word's two bytes as memory holds them: bits 15:8 at the lower address (R53). -/
def wordBytes (w : Word) : List Byte := [w.extractLsb' 8 8, w.extractLsb' 0 8]

/-- The 16-bit word the opcode table's bit numbering spells (bit 0 the least significant): every bit at or above `nbits` is 0. -/
def tableWord (nbits w : Nat) : Word := BitVec.ofNat 16 (w % 2 ^ nbits)

/-- The instruction this decoder reads from a word the opcode table numbers, laid out in bytes as memory holds it. -/
def decodeTableWord (nbits w : Nat) : Option Instr :=
  match decodeBytes (wordBytes (tableWord nbits w)) with
  | .ok i _ => some i
  | .unknownOpcode _ => none
  | .truncated => none

end Sys2Proof
end

