-- ==== Sys2Proof/Config.lean ====
section
/-! DEFINITION. The fixed sizes (spec/00_scope.md R6), the named parameters with their defaults (R7), the font (R33), and
the free values the spec leaves open: opaque constants with no body, so that no proof can know what they are. -/

namespace Sys2Proof.Config

/-- MEM_SIZE: 4096 bytes (R6). -/
abbrev memSize : Nat := 4096

/-- STACK_DEPTH: 16 slots (R6). -/
abbrev stackDepth : Nat := 16

/-- FONT_BASE: 0x050 (R6). -/
abbrev fontBase : Nat := 0x050

/-- ROM_BASE: 0x200, also the reset value of `pc` (R6, R23). -/
abbrev romBase : Nat := 0x200

/-- ROM_MAX: 3584 bytes (R6, R253). -/
abbrev romMax : Nat := 3584

/-- TIMER_HZ: 60 (R6, R235). -/
abbrev timerHz : Nat := 60

/-- SHIFT_SOURCE (R7, R139, R141; 92 D10). -/
inductive ShiftSource where
  | vx
  | vy
  deriving DecidableEq, Repr

/-- JUMP_OFFSET_REG (R7, R119; 92 D11). -/
inductive JumpOffsetReg where
  | v0
  | vx
  deriving DecidableEq, Repr

/-- SYS_MODE (R7, R112; 92 D1). -/
inductive SysMode where
  | nop
  | fault
  deriving DecidableEq, Repr

/-- ADDR_POLICY (R7, R57; 92 D3). -/
inductive AddrPolicy where
  | fault
  | wrap12
  deriving DecidableEq, Repr

/-- ODD_PC_POLICY (R7, R90; 92 D4). -/
inductive OddPcPolicy where
  | fault
  | allow
  deriving DecidableEq, Repr

/-- KEY_INDEX_POLICY (R7, R173; 92 D5). -/
inductive KeyIndexPolicy where
  | fault
  | maskLow4
  deriving DecidableEq, Repr

/-- LOADSTORE_I_MODE (R7, R154, R155; 92 D9). -/
inductive LoadStoreIMode where
  | unchanged
  | increment
  deriving DecidableEq, Repr

/-- TIMER_BLOCK_ORDER (R7, R232; 92 D13). -/
inductive TimerBlockOrder where
  | cpuFirst
  | timerFirst
  | either
  deriving DecidableEq, Repr

/-- FONT: 80 bytes, 16 glyphs of 5 rows (R7, R33). -/
abbrev Font := Vector Byte 80

/-- The standard font, glyph by glyph, as R33's table prints it (from general knowledge, as the spec says: 93 G4). -/
def standardFontBytes : List Byte :=
  [0xF0, 0x90, 0x90, 0x90, 0xF0] ++ [0x20, 0x60, 0x20, 0x20, 0x70] ++
  [0xF0, 0x10, 0xF0, 0x80, 0xF0] ++ [0xF0, 0x10, 0xF0, 0x10, 0xF0] ++
  [0x90, 0x90, 0xF0, 0x10, 0x10] ++ [0xF0, 0x80, 0xF0, 0x10, 0xF0] ++
  [0xF0, 0x80, 0xF0, 0x90, 0xF0] ++ [0xF0, 0x10, 0x20, 0x40, 0x40] ++
  [0xF0, 0x90, 0xF0, 0x90, 0xF0] ++ [0xF0, 0x90, 0xF0, 0x10, 0xF0] ++
  [0xF0, 0x90, 0xF0, 0x90, 0x90] ++ [0xE0, 0x90, 0xE0, 0x90, 0xE0] ++
  [0xF0, 0x80, 0x80, 0x80, 0xF0] ++ [0xE0, 0x90, 0x90, 0x90, 0xE0] ++
  [0xF0, 0x80, 0xF0, 0x80, 0xF0] ++ [0xF0, 0x80, 0xF0, 0x80, 0x80]

/-- The default of FONT (R33, 92 D20). -/
def standardFont : Font := ⟨standardFontBytes.toArray, rfl⟩

/-- The named parameters of R7, which the spec calls arguments of the model. `cpuClockHz` is OPEN: it has no default and
must be supplied, so the default record holds none. -/
structure Params where
  cpuClockHz      : Option Nat
  shiftSource     : ShiftSource
  jumpOffsetReg   : JumpOffsetReg
  sysMode         : SysMode
  addrPolicy      : AddrPolicy
  oddPcPolicy     : OddPcPolicy
  keyIndexPolicy  : KeyIndexPolicy
  loadStoreIMode  : LoadStoreIMode
  timerBlockOrder : TimerBlockOrder
  font            : Font
  deriving DecidableEq, Repr

/-- The defaults of R7's table. -/
def defaultParams : Params where
  cpuClockHz      := none
  shiftSource     := .vx
  jumpOffsetReg   := .v0
  sysMode         := .nop
  addrPolicy      := .fault
  oddPcPolicy     := .fault
  keyIndexPolicy  := .fault
  loadStoreIMode  := .unchanged
  timerBlockOrder := .either
  font            := standardFont

/-- FREE VALUE (notes/assumptions/6.md): the byte the random source delivers for the draw of this number (R160, 92 D25). -/
opaque randomByte : Nat → Byte

/-- FREE VALUE (notes/assumptions/7.md): which of the keys that are down `LD Vx, K` takes when several are (R172, 92 D6);
taken modulo the number of keys down. -/
opaque keyChoice : Nat → Nat

/-- FREE VALUE (notes/assumptions/8.md): whether a host call under TIMER_BLOCK_ORDER = Either runs its timer block first
(R232, 92 D13). -/
opaque timerBlockFirst : Nat → Bool

/-- The elements of the state record a failed ROM load leaves unspecified (R253). -/
inductive Element where
  | v | i | pc | stack | sp | dt | st | mem | fb | dirty | keys | accCpu | accTmr | log
  deriving DecidableEq, Repr

/-- FREE VALUE (notes/assumptions/9.md): what the element, at this index, holds after the failed load of this draw number
(R253, R254, 93 U14). -/
opaque lostValue : Nat → Element → Nat → Nat

end Sys2Proof.Config
end

