-- ==== Sys2Proof/Machine/State.lean ====
section
/-! DEFINITION. The state record of spec/10_state.md (R20 to R45) as plain data, the reasons a step can stop, and the state
after reset (R45). -/

namespace Sys2Proof.Machine

/-- The fatal faults, R201's table, each with the information it carries. A rule that raises one halts the engine: the
machine's next state is `Halted(f)` (R203). As the OUTCOME of a step a fault means that the machine stands halted with it and
the host takes no further action (R204: a halted run is a fault outcome). Safe in both uses: the spec's engine runs nothing
there either. -/
inductive Fault where
  /-- The fetched word matches no table entry (R95). Raised by the cycle. Safe: the spec's own fault. -/
  | unknownOpcode (w : Word)
  /-- A ROM of more than 3584 bytes (R253), with its length. Raised by the ROM load. Safe: the spec's own fault. -/
  | romTooLarge (length : Nat)
  /-- The ROM source could not deliver its bytes (R254). Raised by the ROM load. Safe: the spec's own fault. -/
  | romReadFailure
  /-- The lowest effective address above 0xFFF, under ADDR_POLICY = Fault (R57, R91). Raised by the fetch, DRW, LD B, LD [I]
  and LD Vx,[I]. Safe: the spec's own fault. -/
  | addressFault (a : Nat)
  /-- A fetch at an odd `pc`, under ODD_PC_POLICY = Fault (R90). Raised by the cycle. Safe: the spec's own fault. -/
  | misalignedFetch (pc : Word)
  /-- SKP or SKNP with V[x] > 15, under KEY_INDEX_POLICY = Fault (R173). Safe: the spec's own fault. -/
  | keyIndexFault (v : Byte)
  /-- SYS under SYS_MODE = Fault, with its word (R112). Safe: the spec's own fault. -/
  | sysFault (w : Word)
  deriving DecidableEq, Repr

/-- Why the model has no step. -/
inductive Refusal where
  /-- An instruction with no meaning yet, by its mnemonic. Raised by exec's arm only; no arm does so here. Safe. -/
  | notModelled (mnemonic : String)
  /-- A host action other than a ROM load before the first load: the spec gives it no step (R250, 93 U16). Raised by the host
  actions, and by a call in progress on a machine never loaded, which no run reaches. Safe. -/
  | unloaded
  /-- A host call with no CPU_CLOCK_HZ supplied: the parameter is OPEN and must be supplied (R7, 92 D15). Raised by the host
  call. Safe. -/
  | clockNotSupplied
  deriving DecidableEq, Repr

/-- The recoverable events (R202), each with the address of the instruction that raised it. -/
inductive Event where
  | stackOverflow (pc : Word)
  | stackUnderflow (pc : Word)
  deriving DecidableEq, Repr

/-- The engine's status (R38). -/
inductive Status where
  | unloaded
  | running
  | halted (f : Fault)
  deriving DecidableEq, Repr

/-- What the host may do between host calls (R227, R237): the moves that change the state. -/
inductive HostAction where
  /-- A ROM load (R252): the bytes the ROM source delivers, or none when it fails (R254). -/
  | loadRom (source : Option (List Byte))
  /-- The key-state collaborator's write, wholesale (R229). -/
  | writeKeys (keys : Vector Byte 16)
  /-- The frame-buffer consumer's read (R228). -/
  | readFrame
  /-- One host call with the elapsed milliseconds (R230). -/
  | hostCall (elapsedMs : Nat)
  deriving DecidableEq, Repr

/-- The host call in progress (R231, R234): the cycles it has counted and not yet run, and which block is first. -/
structure Call where
  /-- CPU cycles left. -/
  cpu         : Nat
  /-- Timer cycles left. -/
  tmr         : Nat
  /-- Whether the timer block runs first (R232). -/
  timersFirst : Bool
  deriving DecidableEq, Repr

/-- The 64 columns of 32 pixels, `fb[c][r]` (R34). -/
abbrev FrameBuffer := Vector (Vector Bit 32) 64

/-- Memory: the bytes that differ from what an unlisted address reads as, in rising order of address (notes/assumptions/11.md). -/
abbrev Memory := List Host.Cell

/-- The state record of spec/10_state.md section 1, the host call in progress (R234), the named parameters (R7), and two fields
of the model's own: the queue of host actions not yet taken and the count of free values drawn. -/
structure State where
  /-- The general registers V0 to VF (R20). -/
  V      : Vector Byte 16
  /-- The index register (R25). -/
  I      : Word
  /-- The program counter (R23). -/
  pc     : Word
  /-- The call stack (R26). -/
  stack  : Vector Word 16
  /-- The next free stack slot, 0 to 16 (R27). -/
  sp     : Fin 17
  /-- The delay timer (R30). -/
  DT     : Byte
  /-- The sound timer (R31). -/
  ST     : Byte
  /-- The 4096 bytes of memory (R32). -/
  mem    : Memory
  /-- The frame buffer (R34). -/
  fb     : FrameBuffer
  /-- The dirty flag (R35). -/
  dirty  : Bit
  /-- The key state (R36). -/
  keys   : Vector Byte 16
  /-- The CPU cycle accumulator, in thousandths of a cycle (R37, notes/assumptions/10.md). -/
  accCpu : Nat
  /-- The timer cycle accumulator, in thousandths of a cycle (R37, notes/assumptions/10.md). -/
  accTmr : Nat
  /-- The engine's status (R38). -/
  status : Status
  /-- The recoverable events, oldest first (R39). -/
  log    : List Event
  /-- The host call in progress, none between host calls (R226, R234; notes/assumptions/5.md). -/
  call   : Option Call
  /-- The named parameters (R7); no step changes them (notes/assumptions/1.md). -/
  params : Config.Params
  /-- The model's own: host actions not yet taken, the next first (notes/assumptions/4.md). -/
  inputs : List HostAction
  /-- The model's own: how many free values have been drawn (notes/assumptions/6.md). -/
  draws  : Nat
  deriving DecidableEq, Repr

/-- Every pixel 0 (R34, R110). -/
def FrameBuffer.blank : FrameBuffer := Vector.replicate 64 (Vector.replicate 32 0)

/-- The state after reset and the load of an empty ROM (R45, R251, R252; notes/assumptions/12.md): `pc` at 0x200, everything
else 0, memory at its reset content, the parameters at their defaults. -/
def State.reset : State where
  V      := Vector.replicate 16 0
  I      := 0
  pc     := 0x200
  stack  := Vector.replicate 16 0
  sp     := 0
  DT     := 0
  ST     := 0
  mem    := []
  fb     := FrameBuffer.blank
  dirty  := 0
  keys   := Vector.replicate 16 0
  accCpu := 0
  accTmr := 0
  status := .running
  log    := []
  call   := none
  params := Config.defaultParams
  inputs := []
  draws  := 0

/-- The machine before the first ROM load (R250): its only move is a load. -/
def State.powerOn : State := { State.reset with status := .unloaded }

end Sys2Proof.Machine
end

