-- ==== Sys2Proof/Machine/Ops.lean ====
section
/-! DEFINITION. The named operations over the state: registers, program counter, stack (spec/10_state.md R28, R29), memory
(spec/20_memory.md R55 to R57), frame buffer (spec/43_random_display.md R161), raising a fatal fault and logging a recoverable
event (spec/60_exceptions.md R203, R205). -/

namespace Sys2Proof.Machine

/-- What a meaning, a cycle or a host action answers. -/
abbrev StepResult := Host.Outcome State Fault Refusal

/-! ### One update per element of the state -/

/-- `V[x]` (R10). -/
def State.readV (s : State) (x : Reg) : Byte := s.V[x.val]

/-- `V[x] <- v` (R10). -/
def State.writeV (s : State) (x : Reg) (v : Byte) : State := { s with V := s.V.set x.val v }

/-- All sixteen registers at once. -/
def State.setV (s : State) (v : Vector Byte 16) : State := { s with V := v }

/-- `I <- v`. -/
def State.setI (s : State) (v : Word) : State := { s with I := v }

/-- `pc <- v` (R23). -/
def State.setPc (s : State) (v : Word) : State := { s with pc := v }

/-- The stack's slots and pointer. -/
def State.setStack (s : State) (slots : Vector Word 16) (sp : Fin 17) : State := { s with stack := slots, sp := sp }

/-- `DT <- v`. -/
def State.setDT (s : State) (v : Byte) : State := { s with DT := v }

/-- `ST <- v`. -/
def State.setST (s : State) (v : Byte) : State := { s with ST := v }

/-- All of memory. -/
def State.setMem (s : State) (m : Memory) : State := { s with mem := m }

/-- All of the frame buffer. -/
def State.setFb (s : State) (fb : FrameBuffer) : State := { s with fb := fb }

/-- `dirty <- v`. -/
def State.setDirty (s : State) (v : Bit) : State := { s with dirty := v }

/-- `keys <- v`, wholesale (R229). -/
def State.setKeys (s : State) (v : Vector Byte 16) : State := { s with keys := v }

/-- The two cycle accumulators (R37). -/
def State.setAcc (s : State) (cpu tmr : Nat) : State := { s with accCpu := cpu, accTmr := tmr }

/-- `status <- v` (R38). -/
def State.setStatus (s : State) (v : Status) : State := { s with status := v }

/-- Append one event to the log (R39, R205). -/
def State.logEvent (s : State) (e : Event) : State := { s with log := s.log ++ [e] }

/-- The host call in progress. -/
def State.setCall (s : State) (c : Option Call) : State := { s with call := c }

/-- The queue of host actions not yet taken. -/
def State.setInputs (s : State) (q : List HostAction) : State := { s with inputs := q }

/-- One free value has been drawn. -/
def State.drawn (s : State) : State := { s with draws := s.draws + 1 }

/-! ### The program counter -/

/-- `pc <- pc + 2`: on to the next instruction (R13, R101). -/
def State.advance (s : State) : State := s.setPc (s.pc + 2)

/-- `pc <- pc + 4`: the skip of a satisfied predicate (R13, R101). -/
def State.skipNext (s : State) : State := s.setPc (s.pc + 4)

/-- Skip the next instruction if the predicate holds, else go on to it (R101). -/
def State.skipIf (s : State) (p : Bool) : State := if p then s.skipNext else s.advance

/-! ### Errors -/

/-- `raise F(info)` (R203): nothing is written but `status <- Halted(F(info))`, and the host call in progress runs no further
cycle (R208); `pc` still addresses the instruction (R209). The one way a fatal fault is taken. -/
def State.raise (s : State) (f : Fault) : State := (s.setStatus (.halted f)).setCall none

/-- `log E(info)` and go on (R205): the instruction that logs completes as a no-op that advances `pc` by 2. -/
def State.recover (s : State) (e : Event) : State := (s.logEvent e).advance

/-! ### The call stack -/

/-- `push(v)` (R28): none when `sp = 16`. -/
def State.push (s : State) (v : Word) : Option State :=
  if h : s.sp.val < Config.stackDepth then
    some (s.setStack (s.stack.set s.sp.val v) ⟨s.sp.val + 1, Nat.succ_lt_succ h⟩)
  else none

/-- `pop()` (R29): none when `sp = 0`; the popped slot keeps its value. -/
def State.pop (s : State) : Option (Word × State) :=
  if h : 0 < s.sp.val then
    some (s.stack[s.sp.val - 1]'(by have := s.sp.isLt; omega),
      s.setStack s.stack ⟨s.sp.val - 1, by have := s.sp.isLt; omega⟩)
  else none

/-! ### Memory -/

/-- What an address nothing has written reads as: its reset content (R32, R33, R45), the standard font at 0x050–0x09F and 0
elsewhere. -/
def Memory.unlisted (a : Nat) : Byte :=
  if Config.fontBase ≤ a then Config.standardFontBytes.getD (a - Config.fontBase) 0 else 0

/-- The byte at an address. -/
def Memory.read : Memory → Nat → Byte
  | [], a => Memory.unlisted a
  | c :: m, a => if c.1 = a then c.2 else Memory.read m a

/-- Put a cell before the first cell of a higher address. -/
def Memory.insert (a : Nat) (v : Byte) : Memory → Memory
  | [] => [(a, v)]
  | c :: m => if a < c.1 then (a, v) :: c :: m else c :: Memory.insert a v m

/-- Take every cell of an address out. -/
def Memory.erase (m : Memory) (a : Nat) : Memory := m.filter fun c => c.1 != a

/-- Write one byte. Writing what the unlisted address reads as leaves no cell, so equal memories are equal lists. Outside
0x000–0xFFF there is no byte: R57 has every access checked or reduced before it gets here. -/
def Memory.write (m : Memory) (a : Nat) (v : Byte) : Memory :=
  if a < Config.memSize then
    if v = Memory.unlisted a then m.erase a else Memory.insert a v (m.erase a)
  else m

/-- Write bytes at ascending addresses (R56). -/
def Memory.writeBytes (m : Memory) (a : Nat) : List Byte → Memory
  | [] => m
  | b :: bs => Memory.writeBytes (m.write a b) (a + 1) bs

/-- Addresses strictly rise. -/
def Memory.rising : Memory → Bool
  | [] => true
  | [_] => true
  | c :: d :: m => decide (c.1 < d.1) && Memory.rising (d :: m)

/-- The canonical form: addresses strictly rising, each in 0x000–0xFFF, no cell equal to what its address reads as unlisted. -/
def Memory.wf (m : Memory) : Bool :=
  m.rising && m.all fun c => decide (c.1 < Config.memSize) && c.2 != Memory.unlisted c.1

/-- The byte an effective address names under the policy (R57): itself, or itself mod 4096. -/
def effectiveAddress (p : Config.AddrPolicy) (e : Nat) : Nat :=
  match p with
  | .fault => e
  | .wrap12 => e % Config.memSize

/-- The check of R57 on the `n` effective addresses from `base`: under `Fault`, the lowest one above 0xFFF if there is one. -/
def rangeFault (p : Config.AddrPolicy) (base n : Nat) : Option Fault :=
  match p with
  | .wrap12 => none
  | .fault => if n = 0 ∨ base + n ≤ Config.memSize then none else some (.addressFault (max base Config.memSize))

/-- `MemRead(e, 1)` (R55). -/
def State.readByte (s : State) (e : Nat) : Byte := s.mem.read (effectiveAddress s.params.addrPolicy e)

/-- `MemRead(e + k, 1)` for `k = 0 .. n - 1` (R55). -/
def State.readBytes (s : State) (e n : Nat) : List Byte := (List.range n).map fun k => s.readByte (e + k)

/-- `MemWrite(e, 1, v)` (R56). -/
def State.writeByte (s : State) (e : Nat) (v : Byte) : State :=
  s.setMem (s.mem.write (effectiveAddress s.params.addrPolicy e) v)

/-- `MemWrite(e + k, 1, v_k)` in ascending order of `k` (R56). -/
def State.writeBytes (s : State) (e : Nat) : List Byte → State
  | [] => s
  | b :: bs => State.writeBytes (s.writeByte e b) (e + 1) bs

/-- The check of R57 before an instruction writes anything (R11): raise, or complete as `done`. -/
def State.checkRange (s : State) (base n : Nat) (done : State) : StepResult :=
  match rangeFault s.params.addrPolicy base n with
  | some f => .next (s.raise f)
  | none => .next done

/-! ### The frame buffer -/

/-- Column `n mod 64` (R163). -/
def columnAt (n : Nat) : Fin 64 := ⟨n % 64, Nat.mod_lt n (by decide)⟩

/-- Row `n mod 32` (R163). -/
def rowAt (n : Nat) : Fin 32 := ⟨n % 32, Nat.mod_lt n (by decide)⟩

/-- `fb[c][r]` (R34). -/
def FrameBuffer.pixel (fb : FrameBuffer) (c : Fin 64) (r : Fin 32) : Bit := fb[c.val][r.val]

/-- `fb[c][r] <- fb[c][r] XOR 1` (R161). -/
def FrameBuffer.invert (fb : FrameBuffer) (c : Fin 64) (r : Fin 32) : FrameBuffer :=
  fb.set c.val (fb[c.val].set r.val (fb.pixel c r ^^^ 1))

/-- A draw under way: the frame buffer and whether a lit pixel has been inverted yet (R161's `coll`). -/
structure Drawing where
  fb        : FrameBuffer
  collision : Bool
  deriving DecidableEq, Repr

/-- One sprite bit that is 1 (R161): note a collision if the pixel is lit, then invert it. -/
def Drawing.invert (d : Drawing) (c : Fin 64) (r : Fin 32) : Drawing :=
  { fb := d.fb.invert c r, collision := d.collision || d.fb.pixel c r == 1 }

/-- One sprite byte: bit 7 at column `x0`, down to bit 0 at column `x0 + 7`, each mod 64 (R161, R162). -/
def Drawing.drawByte (d : Drawing) (x0 y : Nat) (b : Byte) : Drawing :=
  (List.range 8).foldl (fun d c => if b.getLsbD (7 - c) then d.invert (columnAt (x0 + c)) (rowAt y) else d) d

/-- The sprite's bytes, one row down each, rows mod 32 (R161). -/
def Drawing.sprite (d : Drawing) (x0 y : Nat) : List Byte → Drawing
  | [] => d
  | b :: bs => Drawing.sprite (d.drawByte x0 y b) x0 (y + 1) bs

/-! ### Keys -/

/-- Key `k` is down when `keys[k] != 0` (R36). -/
def State.keyDown (s : State) (k : Reg) : Bool := s.keys[k.val] != 0

/-- The keys that are down, lowest first (R172's set D). -/
def State.keysDown (s : State) : List Reg := (List.finRange 16).filter fun k => s.keyDown k

/-- R172's `choose(D)`: the key that is down when exactly one is, any one of them when several are (a free value). -/
def chooseKey (draw : Nat) : List Reg → Option Reg
  | [] => none
  | [k] => some k
  | k :: ks => some ((k :: ks).getD (Config.keyChoice draw % (k :: ks).length) k)

end Sys2Proof.Machine
end

