-- ==== Sys2Proof/Machine/Operands.lean ====
section
/-! DEFINITION. The operand forms that are more than a register or a field: the register a shift reads, the offset register of
`JP V0, addr`, the key index of SKP and SKNP, the font address, the BCD digits, and the bytes LD [I] and LD Vx,[I] move. -/

namespace Sys2Proof.Machine

/-- `zext_16(addr)` (R84). -/
def targetOf (addr : Addr12) : Word := addr.setWidth 16

/-- The shifts' source: V[x], or V[y] under SHIFT_SOURCE = Vy (R139, R141). -/
def State.shiftSource (s : State) (x y : Reg) : Byte :=
  match s.params.shiftSource with
  | .vx => s.readV x
  | .vy => s.readV y

/-- The register number `nnn[11:8]` (R119). -/
def offsetReg (addr : Addr12) : Reg := ⟨(addr.extractLsb' 8 4).toNat, (addr.extractLsb' 8 4).isLt⟩

/-- The offset `JP V0, addr` adds: V0, or the register `nnn[11:8]` under JUMP_OFFSET_REG = Vx (R119). -/
def State.jumpOffset (s : State) (addr : Addr12) : Byte :=
  match s.params.jumpOffsetReg with
  | .v0 => s.readV 0
  | .vx => s.readV (offsetReg addr)

/-- The low 4 bits of a byte, as a key number (R173's `v AND 0xF`). -/
def lowNibble (v : Byte) : Reg := ⟨v.toNat % 16, Nat.mod_lt _ (by decide)⟩

/-- `kidx(v)` (R173): the key, or none where KeyIndexFault(v) is raised. -/
def keyIndex (p : Config.KeyIndexPolicy) (v : Byte) : Option Reg :=
  if v.toNat ≤ 15 then some (lowNibble v)
  else match p with
    | .fault => none
    | .maskLow4 => some (lowNibble v)

/-- `0x050 + 5 * v`, unmasked (R152). -/
def glyphAddress (v : Byte) : Word := BitVec.ofNat 16 (Config.fontBase + 5 * v.toNat)

/-- Hundreds, tens, ones (R153). -/
def bcdDigits (v : Byte) : List Byte := [v / 100, v / 10 % 10, v % 10]

/-- V[0] to V[x] (R154). -/
def State.firstRegs (s : State) (x : Reg) : List Byte := s.V.toList.take (x.val + 1)

/-- The registers after V[0] to V[x] are loaded from memory at `e` (R155). -/
def State.loadedRegs (s : State) (e : Nat) (x : Reg) : Vector Byte 16 :=
  Vector.ofFn fun k => if k.val ≤ x.val then s.readByte (e + k.val) else s.readV k

/-- What LD [I], Vx and LD Vx, [I] leave in I: I itself, or `(I + x + 1) mod 65536` under LOADSTORE_I_MODE = Increment (R154, R155). -/
def State.indexAfter (s : State) (x : Reg) : Word :=
  match s.params.loadStoreIMode with
  | .unchanged => s.I
  | .increment => s.I + BitVec.ofNat 16 (x.val + 1)

end Sys2Proof.Machine
end

