-- ==== Sys2Proof/Machine/ControlFlow.lean ====
section
/-! DEFINITION. The control flow family (spec/40_control_flow.md R110 to R119). -/

namespace Sys2Proof.Machine

/-- `CLS` (R110): every pixel 0, dirty 1. -/
def execCls (s : State) : StepResult := .next ((s.setFb FrameBuffer.blank).setDirty 1).advance

/-- `RET` (R111): pop, `pc <- (a + 2) mod 65536`; on underflow log and go on. -/
def execRet (s : State) : StepResult :=
  match s.pop with
  | none => .next (s.recover (.stackUnderflow s.pc))
  | some (a, t) => .next (t.setPc (a + 2))

/-- `SYS addr` (R112): under SYS_MODE = Nop only `pc <- pc + 2`; under Fault raise SysFault(w), w the word 0x0nnn. -/
def execSys (addr : Addr12) (s : State) : StepResult :=
  match s.params.sysMode with
  | .nop => .next s.advance
  | .fault => .next (s.raise (.sysFault (targetOf addr)))

/-- `JP addr` (R113). -/
def execJp (addr : Addr12) (s : State) : StepResult := .next (s.setPc (targetOf addr))

/-- `CALL addr` (R114): push the address of the CALL itself; on overflow log and go on. -/
def execCall (addr : Addr12) (s : State) : StepResult :=
  match s.push s.pc with
  | none => .next (s.recover (.stackOverflow s.pc))
  | some t => .next (t.setPc (targetOf addr))

/-- `SE Vx, byte` (R115). -/
def execSeByte (x : Reg) (byte : Byte) (s : State) : StepResult := .next (s.skipIf (s.readV x == byte))

/-- `SNE Vx, byte` (R116). -/
def execSneByte (x : Reg) (byte : Byte) (s : State) : StepResult := .next (s.skipIf (s.readV x != byte))

/-- `SE Vx, Vy` (R117). -/
def execSeReg (x y : Reg) (s : State) : StepResult := .next (s.skipIf (s.readV x == s.readV y))

/-- `SNE Vx, Vy` (R118). -/
def execSneReg (x y : Reg) (s : State) : StepResult := .next (s.skipIf (s.readV x != s.readV y))

/-- `JP V0, addr` (R119): `pc <- (zext_16(nnn) + V[r]) mod 65536`, never masked to 12 bits. -/
def execJpV0 (addr : Addr12) (s : State) : StepResult :=
  .next (s.setPc (targetOf addr + (s.jumpOffset addr).setWidth 16))

end Sys2Proof.Machine
end

