-- ==== Sys2Proof/Machine/Input.lean ====
section
/-! DEFINITION. The input family (spec/44_input.md R170 to R173). -/

namespace Sys2Proof.Machine

/-- `SKP Vx` (R170): skip if the key of V[x] is down; KeyIndexFault where R173 raises it. -/
def execSkp (x : Reg) (s : State) : StepResult :=
  match keyIndex s.params.keyIndexPolicy (s.readV x) with
  | none => .next (s.raise (.keyIndexFault (s.readV x)))
  | some k => .next (s.skipIf (s.keyDown k))

/-- `SKNP Vx` (R171): skip if the key of V[x] is up. -/
def execSknp (x : Reg) (s : State) : StepResult :=
  match keyIndex s.params.keyIndexPolicy (s.readV x) with
  | none => .next (s.raise (.keyIndexFault (s.readV x)))
  | some k => .next (s.skipIf (!s.keyDown k))

/-- `LD Vx, K` (R172): with no key down nothing changes and `pc` stays; else V[x] gets a key that is down. -/
def execLdVxK (x : Reg) (s : State) : StepResult :=
  match chooseKey s.draws s.keysDown with
  | none => .next s
  | some k => .next ((s.writeV x (BitVec.ofNat 8 k.val)).drawn).advance

end Sys2Proof.Machine
end

