-- ==== Sys2Proof/Machine/MemoryIndex.lean ====
section
/-! DEFINITION. The memory and index family (spec/42_memory_index.md R150 to R155). Every address is checked before the first
write (R11, R57). -/

namespace Sys2Proof.Machine

/-- `LD I, addr` (R150). -/
def execLdI (addr : Addr12) (s : State) : StepResult := .next (s.setI (targetOf addr)).advance

/-- `ADD I, Vx` (R151): mod 65536, VF not written. -/
def execAddI (x : Reg) (s : State) : StepResult := .next (s.setI (s.I + (s.readV x).setWidth 16)).advance

/-- `LD F, Vx` (R152). -/
def execLdF (x : Reg) (s : State) : StepResult := .next (s.setI (glyphAddress (s.readV x))).advance

/-- `LD B, Vx` (R153): hundreds, tens and ones at I, I + 1 and I + 2. -/
def execLdB (x : Reg) (s : State) : StepResult :=
  s.checkRange s.I.toNat 3 (s.writeBytes s.I.toNat (bcdDigits (s.readV x))).advance

/-- `LD [I], Vx` (R154): V[0] to V[x] at I to I + x. -/
def execStoreRegs (x : Reg) (s : State) : StepResult :=
  s.checkRange s.I.toNat (x.val + 1) ((s.writeBytes s.I.toNat (s.firstRegs x)).setI (s.indexAfter x)).advance

/-- `LD Vx, [I]` (R155): V[0] to V[x] from I to I + x. -/
def execLoadRegs (x : Reg) (s : State) : StepResult :=
  s.checkRange s.I.toNat (x.val + 1) ((s.setV (s.loadedRegs s.I.toNat x)).setI (s.indexAfter x)).advance

end Sys2Proof.Machine
end

