-- ==== Sys2Proof/Machine/Flags.lean ====
section
/-! DEFINITION. The flag VF as its six writers compute it (spec/10_state.md R21): carry, not-borrow, the shifted-out bit,
collision. -/

namespace Sys2Proof.Machine

/-- A flag as VF holds it: 1 or 0. -/
def flagByte (b : Bool) : Byte := if b then 1 else 0

/-- Carry of `a + b`: the sum in the naturals exceeds 255 (R137). -/
def carry (a b : Byte) : Bool := decide (255 < a.toNat + b.toNat)

/-- Not-borrow: the minuend is strictly greater than the subtrahend (R138, R140). -/
def notBorrow (minuend subtrahend : Byte) : Bool := decide (subtrahend.toNat < minuend.toNat)

/-- The bit a right shift by 1 moves out: `s AND 1` (R139). -/
def shiftedOutRight (v : Byte) : Bool := v.getLsbD 0

/-- The bit a left shift by 1 moves out: `s[7]` (R141). -/
def shiftedOutLeft (v : Byte) : Bool := v.getLsbD 7

/-- The write order of R133: the result to V[x], then the flag to VF, which wins when x = F. -/
def State.writeWithFlag (s : State) (x : Reg) (result : Byte) (flag : Bool) : State :=
  (s.writeV x result).writeV vf (flagByte flag)

end Sys2Proof.Machine
end

