-- ==== Sys2Proof/Machine/RandomDisplay.lean ====
section
/-! DEFINITION. The random and display family (spec/43_random_display.md R160 to R164). -/

namespace Sys2Proof.Machine

/-- `RND Vx, byte` (R160): the drawn byte, a free value, AND the immediate. -/
def execRnd (x : Reg) (byte : Byte) (s : State) : StepResult :=
  .next ((s.writeV x (Config.randomByte s.draws &&& byte)).drawn).advance

/-- The draw `DRW Vx, Vy, nibble` makes (R161): `nibble` bytes from I, from column V[x] mod 64 and row V[y] mod 32. -/
def State.spriteDrawn (s : State) (x y : Reg) (nibble : Nibble) : Drawing :=
  Drawing.sprite ⟨s.fb, false⟩ ((s.readV x).toNat % 64) ((s.readV y).toNat % 32) (s.readBytes s.I.toNat nibble.toNat)

/-- `DRW Vx, Vy, nibble` (R161): check the sprite's addresses, XOR it into the frame buffer, dirty 1, VF = collision. -/
def execDrw (x y : Reg) (nibble : Nibble) (s : State) : StepResult :=
  s.checkRange s.I.toNat nibble.toNat
    (((s.setFb (s.spriteDrawn x y nibble).fb).setDirty 1).writeV vf
      (flagByte (s.spriteDrawn x y nibble).collision)).advance

end Sys2Proof.Machine
end

