-- ==== Sys2Proof/Machine/RegisterOps.lean ====
section
/-! DEFINITION. The register operations (spec/41_register_ops.md R130 to R141). Every operand is read before any write, the
result goes to V[x], then the flag to VF (R133). -/

namespace Sys2Proof.Machine

/-- `LD Vx, byte` (R130). -/
def execLdByte (x : Reg) (byte : Byte) (s : State) : StepResult := .next (s.writeV x byte).advance

/-- `ADD Vx, byte` (R131): mod 256, no flag. -/
def execAddByte (x : Reg) (byte : Byte) (s : State) : StepResult := .next (s.writeV x (s.readV x + byte)).advance

/-- `LD Vx, Vy` (R132). -/
def execLdReg (x y : Reg) (s : State) : StepResult := .next (s.writeV x (s.readV y)).advance

/-- `OR Vx, Vy` (R134). -/
def execOrReg (x y : Reg) (s : State) : StepResult := .next (s.writeV x (s.readV x ||| s.readV y)).advance

/-- `AND Vx, Vy` (R135). -/
def execAndReg (x y : Reg) (s : State) : StepResult := .next (s.writeV x (s.readV x &&& s.readV y)).advance

/-- `XOR Vx, Vy` (R136). -/
def execXorReg (x y : Reg) (s : State) : StepResult := .next (s.writeV x (s.readV x ^^^ s.readV y)).advance

/-- `ADD Vx, Vy` (R137): VF = carry. -/
def execAddReg (x y : Reg) (s : State) : StepResult :=
  .next (s.writeWithFlag x (s.readV x + s.readV y) (carry (s.readV x) (s.readV y))).advance

/-- `SUB Vx, Vy` (R138): VF = not-borrow, the minuend V[x]. -/
def execSub (x y : Reg) (s : State) : StepResult :=
  .next (s.writeWithFlag x (s.readV x - s.readV y) (notBorrow (s.readV x) (s.readV y))).advance

/-- `SHR Vx, Vy` (R139): VF = the source's bit 0. -/
def execShr (x y : Reg) (s : State) : StepResult :=
  .next (s.writeWithFlag x (s.shiftSource x y >>> 1) (shiftedOutRight (s.shiftSource x y))).advance

/-- `SUBN Vx, Vy` (R140): VF = not-borrow, the minuend V[y]. -/
def execSubn (x y : Reg) (s : State) : StepResult :=
  .next (s.writeWithFlag x (s.readV y - s.readV x) (notBorrow (s.readV y) (s.readV x))).advance

/-- `SHL Vx, Vy` (R141): VF = the source's bit 7. -/
def execShl (x y : Reg) (s : State) : StepResult :=
  .next (s.writeWithFlag x (s.shiftSource x y <<< 1) (shiftedOutLeft (s.shiftSource x y))).advance

end Sys2Proof.Machine
end

