-- ==== Sys2Proof/Machine/Timers.lean ====
section
/-! DEFINITION. The timer instructions (spec/45_timers.md R180 to R182). The timers' decrement is the timer cycle of
Machine/HostCall.lean. -/

namespace Sys2Proof.Machine

/-- `LD Vx, DT` (R180). -/
def execLdVxDt (x : Reg) (s : State) : StepResult := .next (s.writeV x s.DT).advance

/-- `LD DT, Vx` (R181). -/
def execLdDtVx (x : Reg) (s : State) : StepResult := .next (s.setDT (s.readV x)).advance

/-- `LD ST, Vx` (R182). -/
def execLdStVx (x : Reg) (s : State) : StepResult := .next (s.setST (s.readV x)).advance

end Sys2Proof.Machine
end

