-- ==== Sys2Proof/Machine/Cycle.lean ====
section
/-! DEFINITION. The CPU cycle (spec/30_encoding.md R90 to R93, R95, R100): alignment check, range check, fetch, decode, run. -/

namespace Sys2Proof.Machine

/-- The fetch's checks in their order (R90, R91, R207): an odd `pc` under ODD_PC_POLICY = Fault, then `pc` or `pc + 1` above
0xFFF under ADDR_POLICY = Fault. -/
def State.fetchFault (s : State) : Option Fault :=
  if s.params.oddPcPolicy = .fault ∧ s.pc.toNat % 2 = 1 then some (.misalignedFetch s.pc)
  else rangeFault s.params.addrPolicy s.pc.toNat 2

/-- `w <- MemRead(pc, 2)`: the byte at the lower address is bits 15:8 (R53, R55, R92). -/
def State.fetchWord (s : State) : Word := s.readByte s.pc.toNat ++ s.readByte (s.pc.toNat + 1)

/-- One CPU cycle (R100): the checks, then fetch and decode, then the handler. Only a host call in progress runs it, and only
while the status is `Running` (R38, R204, R226). -/
def cycle (s : State) : StepResult :=
  match s.fetchFault with
  | some f => .next (s.raise f)
  | none =>
    match decode s.fetchWord with
    | none => .next (s.raise (.unknownOpcode s.fetchWord))
    | some i => exec i s

/-- The word stored where the next fetch reads it, high byte first. -/
def State.placeWord (s : State) (w : Word) : State := s.writeBytes s.pc.toNat (wordBytes w)

end Sys2Proof.Machine
end

