-- ==== Sys2Proof/Machine/HostCall.lean ====
section
/-! DEFINITION. The host call with its timing accumulator, its CPU cycles and timer cycles (spec/60_exceptions.md R230 to R234),
the other host actions (R226 to R229, R237, R240), and the ROM load (spec/70_reset_and_hazards.md R250 to R256). -/

namespace Sys2Proof.Machine

/-! ### Timer cycles -/

/-- One timer counted down, clamped at 0 (R233). -/
def countDown (t : Byte) : Byte := if t = 0 then 0 else t - 1

/-- One timer cycle (R233): both timers, nothing else. -/
def State.timerCycle (s : State) : State := (s.setDT (countDown s.DT)).setST (countDown s.ST)

/-! ### Starting a host call -/

/-- Accumulate (R230), in thousandths of a cycle: `elapsed_ms * hz / 1000` cycles are `elapsed_ms * hz` thousandths. -/
def accumulate (acc elapsedMs hz : Nat) : Nat := acc + elapsedMs * hz

/-- `floor` of an accumulator (R231): the whole cycles in it. -/
def wholeCycles (acc : Nat) : Nat := acc / 1000

/-- The fractional remainder an accumulator keeps (R231). -/
def fractionLeft (acc : Nat) : Nat := acc % 1000

/-- Whether this call runs its timer block first (R232): as TIMER_BLOCK_ORDER says, a free choice under `Either`. -/
def State.timersFirst (s : State) : Bool :=
  match s.params.timerBlockOrder with
  | .cpuFirst => false
  | .timerFirst => true
  | .either => Config.timerBlockFirst s.draws

/-- The state once the call's block order is settled: a choice under `Either` is one free value drawn. -/
def State.orderSettled (s : State) : State :=
  match s.params.timerBlockOrder with
  | .cpuFirst => s
  | .timerFirst => s
  | .either => s.drawn

/-- A call with these cycles left, none when it has run them all. -/
def Call.orDone (c : Call) : Option Call := if c.cpu = 0 ∧ c.tmr = 0 then none else some c

/-- A running engine's call starts at a clock of `hz` (R230, R231, R234): accumulate, count both kinds of cycle before any runs,
keep the remainders, settle the block order. -/
def startCall (hz elapsedMs : Nat) (s : State) : State :=
  (s.orderSettled.setAcc (fractionLeft (accumulate s.accCpu elapsedMs hz))
      (fractionLeft (accumulate s.accTmr elapsedMs Config.timerHz))).setCall
    (Call.orDone {
      cpu := wholeCycles (accumulate s.accCpu elapsedMs hz)
      tmr := wholeCycles (accumulate s.accTmr elapsedMs Config.timerHz)
      timersFirst := s.timersFirst })

/-- `hostCall(elapsed_ms)` (R234) up to its first cycle. Halted, it runs no cycle and changes nothing (R204); unloaded, it has no
step (R250). -/
def hostCall (elapsedMs : Nat) (s : State) : StepResult :=
  match s.status with
  | .unloaded => .refused .unloaded
  | .halted _ => .next s
  | .running =>
    match s.params.cpuClockHz with
    | none => .refused .clockNotSupplied
    | some hz => .next (startCall hz elapsedMs s)

/-! ### A host call in progress -/

/-- What a host call does next: a CPU cycle, a timer cycle, or nothing more. -/
inductive Turn where
  | cpu
  | timer
  | over
  deriving DecidableEq, Repr

/-- One block whole, then the other (R232, R234). -/
def Call.turn (c : Call) : Turn :=
  if c.timersFirst then
    if 0 < c.tmr then .timer else if 0 < c.cpu then .cpu else .over
  else
    if 0 < c.cpu then .cpu else if 0 < c.tmr then .timer else .over

/-- The call once one more CPU cycle is begun. -/
def Call.afterCpu (c : Call) : Option Call := Call.orDone { c with cpu := c.cpu - 1 }

/-- The call once one more timer cycle is run. -/
def Call.afterTimer (c : Call) : Option Call := Call.orDone { c with tmr := c.tmr - 1 }

/-- The next cycle of a running engine's call. A cycle that raises ends the call (R203, R208). -/
def runTurn (c : Call) (s : State) : StepResult :=
  match c.turn with
  | .cpu => cycle (s.setCall c.afterCpu)
  | .timer => .next (s.setCall c.afterTimer).timerCycle
  | .over => .next (s.setCall none)

/-- One step of a host call in progress (R234): its next cycle, while the status is `Running` (R38). -/
def callStep (c : Call) (s : State) : StepResult :=
  match s.status with
  | .unloaded => .refused .unloaded
  | .halted f => .fault f
  | .running => runTurn c s

/-! ### ROM load -/

/-- Every element at its reset value (R251), memory holding FONT and 0 elsewhere. The parameters, which a load does not
supply, stay; so do the model's own queue and draw counter. No host call is in progress (R226). -/
def State.resetForLoad (s : State) : State :=
  { State.reset with
    mem := Memory.writeBytes [] Config.fontBase s.params.font.toList
    params := s.params
    inputs := s.inputs
    draws := s.draws }

/-- A recoverable event drawn freely. -/
def lostEvent (draw k : Nat) : Event :=
  if Config.lostValue draw .log (2 * k + 1) % 2 = 0 then .stackOverflow (BitVec.ofNat 16 (Config.lostValue draw .log (2 * k + 2)))
  else .stackUnderflow (BitVec.ofNat 16 (Config.lostValue draw .log (2 * k + 2)))

/-- A failed load (R253, R254): `status <- Halted(f)`, every other element of the state record unspecified: a free value. -/
def State.failedLoad (s : State) (f : Fault) : State where
  V      := Vector.ofFn fun k => BitVec.ofNat 8 (Config.lostValue s.draws .v k.val)
  I      := BitVec.ofNat 16 (Config.lostValue s.draws .i 0)
  pc     := BitVec.ofNat 16 (Config.lostValue s.draws .pc 0)
  stack  := Vector.ofFn fun k => BitVec.ofNat 16 (Config.lostValue s.draws .stack k.val)
  sp     := ⟨Config.lostValue s.draws .sp 0 % 17, Nat.mod_lt _ (by decide)⟩
  DT     := BitVec.ofNat 8 (Config.lostValue s.draws .dt 0)
  ST     := BitVec.ofNat 8 (Config.lostValue s.draws .st 0)
  mem    := Memory.writeBytes [] 0
              ((List.range Config.memSize).map fun a => BitVec.ofNat 8 (Config.lostValue s.draws .mem a))
  fb     := Vector.ofFn fun c => Vector.ofFn fun r => BitVec.ofNat 1 (Config.lostValue s.draws .fb (32 * c.val + r.val))
  dirty  := BitVec.ofNat 1 (Config.lostValue s.draws .dirty 0)
  keys   := Vector.ofFn fun k => BitVec.ofNat 8 (Config.lostValue s.draws .keys k.val)
  accCpu := Config.lostValue s.draws .accCpu 0 % 1000
  accTmr := Config.lostValue s.draws .accTmr 0 % 1000
  status := .halted f
  log    := (List.range (Config.lostValue s.draws .log 0)).map (lostEvent s.draws)
  call   := none
  params := s.params
  inputs := s.inputs
  draws  := s.draws + 1

/-- The state after a successful load: reset, the ROM's bytes from 0x200, status `Running` (R252). -/
def State.loadedWith (s : State) (rom : List Byte) : State :=
  { s.resetForLoad with mem := s.resetForLoad.mem.writeBytes Config.romBase rom, status := .running }

/-- ROM load (R252): read failure first, then length, else reset and copy. -/
def loadRom (source : Option (List Byte)) (s : State) : StepResult :=
  match source with
  | none => .next (s.failedLoad .romReadFailure)
  | some rom =>
    if Config.romMax < rom.length then .next (s.failedLoad (.romTooLarge rom.length)) else .next (s.loadedWith rom)

/-! ### The host's other moves -/

/-- The frame-buffer consumer's read (R228) sets `dirty <- 0`; what it returns is `fb` and `dirty` as they stood. -/
def State.frameRead (s : State) : State := s.setDirty 0

/-- What the frame-buffer consumer's read returns (R228). -/
def State.frame (s : State) : FrameBuffer × Bit := (s.fb, s.dirty)

/-- The sound-timer observer's bit: `ST > 0` (R227). -/
def State.soundOn (s : State) : Bool := decide (0 < s.ST.toNat)

/-- One host action (R227, R237). Before the first load only a load has a step (R250). -/
def hostAction (a : HostAction) (s : State) : StepResult :=
  match a with
  | .loadRom source => loadRom source s
  | .writeKeys keys => if s.status = .unloaded then .refused .unloaded else .next (s.setKeys keys)
  | .readFrame => if s.status = .unloaded then .refused .unloaded else .next s.frameRead
  | .hostCall elapsedMs => hostCall elapsedMs s

/-- No host call in progress and no host action to take: the machine does not advance and keeps all its state (R237, R240). A
halted machine then stands at its fault outcome (R204). -/
def idle (s : State) : StepResult :=
  match s.status with
  | .unloaded => .next s
  | .halted f => .fault f
  | .running => .next s

/-- The host's turn, between host calls (R226): its next action, if it takes one. -/
def hostTurn (s : State) : StepResult :=
  match s.inputs with
  | [] => idle s
  | a :: rest => hostAction a (s.setInputs rest)

end Sys2Proof.Machine
end

