-- ==== Sys2Proof/Machine/Step.lean ====
section
/-! DEFINITION. One step of the machine: the next cycle of the host call in progress or, between host calls, the host's next
action (notes/assumptions/4.md and 5.md). -/

namespace Sys2Proof.Machine

/-- One step (R226): the engine runs only inside a host call, one cycle a step; the host acts only between host calls. -/
def step (s : State) : Host.Outcome State Fault Refusal :=
  match s.call with
  | none => hostTurn s
  | some c => callStep c s

/-- The state with the instruction of this opcode-table word stored where the next fetch reads it, the engine running, and a host
call in progress with one CPU cycle left: the next step runs exactly that instruction. -/
def State.withFetchWord (s : State) (nbits w : Nat) : State :=
  ((s.placeWord (tableWord nbits w)).setStatus .running).setCall (some { cpu := 1, tmr := 0, timersFirst := false })

end Sys2Proof.Machine
end

