-- ==== Sys2Proof/Safety.lean ====
section
/-! DEFINITION. The terms claims are stated in: a running engine, the machine's invariant, what a transition leaves unchanged,
the pixels a sprite covers, the `pc` an instruction leaves, and a host call as a whole. -/

namespace Sys2Proof.Machine

/-- No fatal fault has been taken (R204): the machine is `Running`. -/
def State.faultFree (s : State) : Prop := s.status = .running

/-- The machine's invariant: memory is in its canonical form, each accumulator holds less than one cycle (R37), and a host call in
progress is a running engine's and has a cycle left to run (R204, R208, R226). That `sp` lies in 0..16 (R27) and that every
pixel is 0 or 1 (R34) hold by their types. -/
def State.Inv (s : State) : Prop :=
  s.mem.wf = true ∧ s.accCpu < 1000 ∧ s.accTmr < 1000 ∧
    ∀ c, s.call = some c → s.status = .running ∧ 0 < c.cpu + c.tmr

/-- The elements of the state an instruction may write beside `pc` and the general registers. -/
inductive Part where
  | index | stack | delayTimer | soundTimer | memory | pixels | dirty | log | draws
  deriving DecidableEq, Repr

/-- From `s` to `t` every general register outside `regs`, every part outside `parts`, and always the key state, the
accumulators, the status, the host call in progress, the parameters and the queued host actions are unchanged; `pc` may change. Memory is compared byte
by byte, through the model's read of one byte; the host call in progress is the field of notes/assumptions/5.md. -/
def State.KeepsBut (s t : State) (regs : List Reg) (parts : List Part) : Prop :=
  (∀ r, r ∉ regs → t.readV r = s.readV r) ∧
  (Part.index ∉ parts → t.I = s.I) ∧
  (Part.stack ∉ parts → t.stack = s.stack ∧ t.sp = s.sp) ∧
  (Part.delayTimer ∉ parts → t.DT = s.DT) ∧
  (Part.soundTimer ∉ parts → t.ST = s.ST) ∧
  (Part.memory ∉ parts → ∀ a, t.mem.read a = s.mem.read a) ∧
  (Part.pixels ∉ parts → t.fb = s.fb) ∧
  (Part.dirty ∉ parts → t.dirty = s.dirty) ∧
  (Part.log ∉ parts → t.log = s.log) ∧
  (Part.draws ∉ parts → t.draws = s.draws) ∧
  t.keys = s.keys ∧ t.accCpu = s.accCpu ∧ t.accTmr = s.accTmr ∧ t.status = s.status ∧
  t.call = s.call ∧ t.params = s.params ∧ t.inputs = s.inputs

/-- The `n` effective addresses from `base` all exist: the policy wraps them, there are none, or the last is at most 0xFFF (R57). -/
def State.InRange (s : State) (base n : Nat) : Prop :=
  s.params.addrPolicy = .wrap12 ∨ n = 0 ∨ base + n ≤ Config.memSize

/-- The address in memory an effective address of this machine names (R57). -/
def State.place (s : State) (e : Nat) : Nat := effectiveAddress s.params.addrPolicy e

/-- The sprite of `DRW Vx, Vy, n` has a 1 bit over the pixel (R161, R162, R163): byte `i` at I + i is row y0 + i, bit 7 - j
is column x0 + j, both wrapped. -/
def State.SpriteCovers (s : State) (x y : Reg) (n : Nibble) (c : Fin 64) (r : Fin 32) : Prop :=
  ∃ i j, i < n.toNat ∧ j < 8 ∧ c.val = ((s.readV x).toNat % 64 + j) % 64 ∧ r.val = ((s.readV y).toNat % 32 + i) % 32 ∧
    (s.readByte (s.I.toNat + i)).getLsbD (7 - j) = true

/-- The `pc` an instruction that raises no fatal fault leaves (R101): `pc + 2`, `pc + 4` where the skip's comparison holds
(R115 to R118, R170, R171), the target of a jump, call or return (R111, R113, R114, R119), and `pc` itself while `LD Vx, K`
waits (R172). -/
def State.pcAfter (s : State) : Instr → Word
  | .cls => s.pc + 2
  | .ret =>
    if h : 0 < s.sp.val then s.stack[s.sp.val - 1]'(by have := s.sp.isLt; omega) + 2 else s.pc + 2
  | .sys _ => s.pc + 2
  | .jp addr => addr.setWidth 16
  | .call addr => if s.sp.val < 16 then addr.setWidth 16 else s.pc + 2
  | .seByte x kk => if s.readV x = kk then s.pc + 4 else s.pc + 2
  | .sneByte x kk => if s.readV x = kk then s.pc + 2 else s.pc + 4
  | .seReg x y => if s.readV x = s.readV y then s.pc + 4 else s.pc + 2
  | .ldByte _ _ => s.pc + 2
  | .addByte _ _ => s.pc + 2
  | .ldReg _ _ => s.pc + 2
  | .orReg _ _ => s.pc + 2
  | .andReg _ _ => s.pc + 2
  | .xorReg _ _ => s.pc + 2
  | .addReg _ _ => s.pc + 2
  | .sub _ _ => s.pc + 2
  | .shr _ _ => s.pc + 2
  | .subn _ _ => s.pc + 2
  | .shl _ _ => s.pc + 2
  | .sneReg x y => if s.readV x = s.readV y then s.pc + 2 else s.pc + 4
  | .ldI _ => s.pc + 2
  | .jpV0 addr =>
    match s.params.jumpOffsetReg with
    | .v0 => addr.setWidth 16 + (s.readV 0).setWidth 16
    | .vx => addr.setWidth 16 + (s.readV ⟨addr.toNat / 256, by have := addr.isLt; omega⟩).setWidth 16
  | .rnd _ _ => s.pc + 2
  | .drw _ _ _ => s.pc + 2
  | .skp x => if s.keys[(s.readV x).toNat % 16]'(by omega) = 0 then s.pc + 2 else s.pc + 4
  | .sknp x => if s.keys[(s.readV x).toNat % 16]'(by omega) = 0 then s.pc + 4 else s.pc + 2
  | .ldVxDt _ => s.pc + 2
  | .ldVxK _ => if ∀ k : Reg, s.keys[k.val] = 0 then s.pc else s.pc + 2
  | .ldDtVx _ => s.pc + 2
  | .ldStVx _ => s.pc + 2
  | .addI _ => s.pc + 2
  | .ldF _ => s.pc + 2
  | .ldB _ => s.pc + 2
  | .storeRegs _ => s.pc + 2
  | .loadRegs _ => s.pc + 2

/-! ### A whole host call, as R234's pseudocode gives it, for claims about its end -/

/-- `runTmr(n)` (R234): `n` timer cycles. -/
def runTimers : Nat → State → State
  | 0, s => s
  | n + 1, s => runTimers n s.timerCycle

/-- `runCpu(n)` (R234): the CPU cycle up to `n` times while the status is `Running`. -/
def runCpu : Nat → State → StepResult
  | 0, s => .next s
  | n + 1, s =>
    match s.status with
    | .unloaded => .next s
    | .halted _ => .next s
    | .running =>
      match cycle s with
      | .next t => runCpu n t
      | .fault f => .fault f
      | .refused r => .refused r

/-- The CPU block, then the timer block if the status is still `Running` (R208, R232, R234). -/
def runCpuFirst (nCpu nTmr : Nat) (s : State) : StepResult :=
  match runCpu nCpu s with
  | .next t => .next (if t.status = .running then runTimers nTmr t else t)
  | .fault f => .fault f
  | .refused r => .refused r

/-- The timer block, then the CPU block (R232, R234). -/
def runTimersFirst (nCpu nTmr : Nat) (s : State) : StepResult := runCpu nCpu (runTimers nTmr s)

/-- The rest of the host call in progress, as R234's pseudocode gives it. -/
def finishCall (s : State) : StepResult :=
  match s.call with
  | none => .next s
  | some c =>
    if c.timersFirst then runTimersFirst c.cpu c.tmr (s.setCall none) else runCpuFirst c.cpu c.tmr (s.setCall none)

/-- A host call from its start to its end (R234). -/
def wholeCall (elapsedMs : Nat) (s : State) : StepResult :=
  match hostCall elapsedMs s with
  | .next t => finishCall t
  | .fault f => .fault f
  | .refused r => .refused r

/-- A list of host calls, one after the other. -/
def runCalls : List Nat → State → StepResult
  | [], s => .next s
  | ms :: rest, s =>
    match wholeCall ms s with
    | .next t => runCalls rest t
    | .fault f => .fault f
    | .refused r => .refused r

/-- How many whole cycles host calls of these elapsed times count at a rate of `hz`, from an accumulator (R230, R231). -/
def cyclesCounted (hz : Nat) : Nat → List Nat → Nat
  | _, [] => 0
  | acc, ms :: rest =>
    wholeCycles (accumulate acc ms hz) + cyclesCounted hz (fractionLeft (accumulate acc ms hz)) rest

end Sys2Proof.Machine
end

