-- ==== Sys2Proof/Certificates/Slice0/Obligations.lean ====
section
/-! DEFINITION. The statements for the provers, each from the numbered rules of spec/. `KeepsBut`, `InRange`, `place`,
`SpriteCovers`, `pcAfter`, `Inv`, `runTimers`, `runCpu`, `runCpuFirst`, `runTimersFirst`, `finishCall`, `wholeCall`, `runCalls` and
`cyclesCounted` are defined in Safety.lean; `Host.Core.run core k` takes `k` steps. -/

open Sys2Proof
open Sys2Proof.Machine

/-! ### Encoding and decoding -/

/-- One word of each family, written out from R82 and R94, decodes to the instruction it stands for. -/
def Obligations.SampleWordsDecode : Prop :=
  decode 0x00E0 = some .cls ∧ decode 0x00EE = some .ret ∧ decode 0x00E1 = some (.sys 0x0E1) ∧
  decode 0x2300 = some (.call 0x300) ∧ decode 0x5120 = some (.seReg 1 2) ∧ decode 0x5121 = none ∧
  decode 0x8F14 = some (.addReg 15 1) ∧ decode 0x840E = some (.shl 4 0) ∧ decode 0x8008 = none ∧
  decode 0xF255 = some (.storeRegs 2) ∧ decode 0xC30F = some (.rnd 3 0x0F) ∧ decode 0xD125 = some (.drw 1 2 5) ∧
  decode 0xE19E = some (.skp 1) ∧ decode 0xF30A = some (.ldVxK 3) ∧ decode 0xF515 = some (.ldDtVx 5) ∧
  decode 0xFFFF = none

/-- Decode of encode gives every well-formed instruction back, each operand at every value (R82, R83, R87, R94). -/
def Obligations.DecodeOfEncode : Prop :=
  ∀ i : Instr, i.wellFormed = true → decode (encode i) = some i

/-- A word that decodes is the encoding of a well-formed instruction: no two words spell one instruction (R83, R89). -/
def Obligations.EncodeOfDecode : Prop :=
  ∀ (w : Word) (i : Instr), decode w = some i → i.wellFormed = true ∧ encode i = w

/-- The unknown words are exactly those R96 lists, by top nibble `w div 4096`, low nibble and low byte. -/
def Obligations.UnknownWordsAreThoseListed : Prop :=
  ∀ w : Word, decode w = none ↔
    (w.toNat / 4096 = 5 ∧ w.toNat % 16 ≠ 0) ∨
    (w.toNat / 4096 = 8 ∧ w.toNat % 16 ∈ [0x8, 0x9, 0xA, 0xB, 0xC, 0xD, 0xF]) ∨
    (w.toNat / 4096 = 9 ∧ w.toNat % 16 ≠ 0) ∨
    (w.toNat / 4096 = 14 ∧ w.toNat % 256 ∉ [0x9E, 0xA1]) ∨
    (w.toNat / 4096 = 15 ∧ w.toNat % 256 ∉ [0x07, 0x0A, 0x15, 0x18, 0x1E, 0x29, 0x33, 0x55, 0x65])

/-- Only 0x00E0 and 0x00EE match more than one row of the table; every other word matches at most one (R88). -/
def Obligations.OnlyClsAndRetWordsMatchTwice : Prop :=
  ∀ w : Word, 1 < (opcodeTable.filter fun r => r.matchesWord w).length ↔ w = 0x00E0 ∨ w = 0x00EE

/-! ### Fetch, the CPU cycle and the step -/

/-- The fetch is big-endian: `w = mem[pc] * 256 + mem[pc + 1]` (R92), under ADDR_POLICY = Wrap12 each address mod 4096 (R91). -/
def Obligations.FetchReadsBigEndianWord : Prop :=
  ∀ s : State,
    (s.params.addrPolicy = .fault →
      s.fetchWord.toNat = (s.mem.read s.pc.toNat).toNat * 256 + (s.mem.read (s.pc.toNat + 1)).toNat) ∧
    (s.params.addrPolicy = .wrap12 →
      s.fetchWord.toNat = (s.mem.read (s.pc.toNat % 4096)).toNat * 256 + (s.mem.read ((s.pc.toNat + 1) % 4096)).toNat)

/-- In a running engine's host call whose next cycle is a CPU cycle (R232), with `pc` even (or odd allowed) and both bytes in
range, a step whose fetched word decodes to an instruction is exec of that instruction at that state with one CPU cycle fewer
left to the call (none in progress after the last), and the instruction is well formed (R100, R226; how the call in progress is
held is the model's own, notes/assumptions/5.md). -/
def Obligations.StepRunsDecodedInstruction : Prop :=
  ∀ (s : State) (c : Call) (i : Instr), s.status = .running → s.call = some c →
    0 < c.cpu → (c.timersFirst = false ∨ c.tmr = 0) →
    (s.params.oddPcPolicy = .allow ∨ s.pc.toNat % 2 = 0) → s.InRange s.pc.toNat 2 →
    decode s.fetchWord = some i →
    step s = exec i { s with call := if c.cpu = 1 ∧ c.tmr = 0 then none else some { c with cpu := c.cpu - 1 } } ∧
      i.wellFormed = true

/-- The CPU cycle's faults in their order, each leaving everything as it was but the status and the host call, which ends: an odd `pc` first (R90), then a byte
of the fetch above 0xFFF, reported by the lowest such address (R91), then a word that matches no entry (R95). -/
def Obligations.CycleFaultsInOrder : Prop :=
  ∀ (s : State) (c : Call), s.status = .running → s.call = some c →
    0 < c.cpu → (c.timersFirst = false ∨ c.tmr = 0) →
    (s.params.oddPcPolicy = .fault → s.pc.toNat % 2 = 1 → step s = .next (s.raise (.misalignedFetch s.pc))) ∧
    ((s.params.oddPcPolicy = .allow ∨ s.pc.toNat % 2 = 0) → s.params.addrPolicy = .fault → 0xFFF ≤ s.pc.toNat →
      step s = .next (s.raise (.addressFault (if s.pc.toNat = 0xFFF then 0x1000 else s.pc.toNat)))) ∧
    ((s.params.oddPcPolicy = .allow ∨ s.pc.toNat % 2 = 0) → s.InRange s.pc.toNat 2 → decode s.fetchWord = none →
      step s = .next (s.raise (.unknownOpcode s.fetchWord)))

/-- Raising a fatal fault writes the status and no other element of the state record, and ends the host call in progress
(R203, R208, R209). -/
def Obligations.RaiseWritesStatusOnly : Prop :=
  ∀ (s : State) (f : Fault), s.raise f = { s with status := .halted f, call := none }

/-- A halted machine: with no host action to take it stands at its fault, a host call changes nothing, and no step leaves `Halted`
but a ROM load (R204; that it then answers the fault as its outcome is the model's choice, notes/assumptions/3.md). -/
def Obligations.HaltedLeavesOnlyByLoad : Prop :=
  ∀ (s : State) (f : Fault), s.status = .halted f →
    (s.call = none → s.inputs = [] → step s = .fault f) ∧
    (∀ ms, hostCall ms s = .next s) ∧
    (∀ t, (∀ src rest, s.inputs ≠ .loadRom src :: rest) → step s = .next t → t.status = .halted f)

/-- Before the first load the only move is a ROM load: every other host action and every cycle of a call has no step, and with
no host action to take nothing changes (R250, R237; the refusal's form is the model's choice, notes/assumptions/15.md). -/
def Obligations.UnloadedMovesOnlyByLoad : Prop :=
  ∀ s : State, s.status = .unloaded →
    (∀ a rest, s.inputs = a :: rest → (∀ src, a ≠ .loadRom src) → step s = .refused .unloaded) ∧
    (s.call ≠ none → step s = .refused .unloaded) ∧
    (s.call = none → s.inputs = [] → step s = .next s)

/-- The word `withFetchWord` places is the one the next step runs, as the one CPU cycle left of a host call, at any even `pc` up to
0xFFE (R92, R100; the placing is the model's own, notes/assumptions/12.md). -/
def Obligations.PlacedWordIsRunNext : Prop :=
  ∀ (s : State) (w : Word) (i : Instr), s.pc.toNat % 2 = 0 → s.pc.toNat ≤ 0xFFE → decode w = some i →
    step (s.withFetchWord 16 w.toNat) = exec i { s.withFetchWord 16 w.toNat with call := none }

/-- A store over the next instruction is seen by the very next fetch (R63): `LD [I], Vx` at I = pc + 2 with x at least 1 makes
the next word V0, V1. -/
def Obligations.StoreIsSeenByNextFetch : Prop :=
  ∀ (s : State) (x : Reg), 1 ≤ x.val → s.I = s.pc + 2 → s.I.toNat + x.val ≤ 0xFFF →
    ∃ t, exec (.storeRegs x) s = .next t ∧ t.pc = s.pc + 2 ∧
      t.fetchWord.toNat = (s.readV 0).toNat * 256 + (s.readV 1).toNat

/-! ### Control flow -/

/-- `CLS` (R110): every pixel 0, dirty 1, pc + 2, nothing else. -/
def Obligations.ClsClearsScreen : Prop :=
  ∀ s : State, ∃ t, exec .cls s = .next t ∧ (∀ c r, t.fb.pixel c r = 0) ∧ t.dirty = 1 ∧ t.pc = s.pc + 2 ∧
    s.KeepsBut t [] [.pixels, .dirty]

/-- `RET` (R111, R29): above depth 0 it pops to the address after the popped one; at depth 0 it logs and goes on. -/
def Obligations.RetPopsOrLogsUnderflow : Prop :=
  ∀ s : State,
    (∀ h : 0 < s.sp.val, ∃ t, exec .ret s = .next t ∧
      t.pc.toNat = ((s.stack[s.sp.val - 1]'(by have := s.sp.isLt; omega)).toNat + 2) % 65536 ∧
      t.sp.val = s.sp.val - 1 ∧ t.stack = s.stack ∧ s.KeepsBut t [] [.stack]) ∧
    (s.sp.val = 0 → ∃ t, exec .ret s = .next t ∧ t.pc = s.pc + 2 ∧ t.log = s.log ++ [.stackUnderflow s.pc] ∧
      s.KeepsBut t [] [.log])

/-- `CALL` (R114, R28): below depth 16 it pushes its own address and jumps; at depth 16 it logs and goes on. -/
def Obligations.CallPushesOrLogsOverflow : Prop :=
  ∀ (s : State) (addr : Addr12),
    (∀ h : s.sp.val < 16, ∃ t, exec (.call addr) s = .next t ∧ t.pc.toNat = addr.toNat ∧ t.sp.val = s.sp.val + 1 ∧
      t.stack[s.sp.val] = s.pc ∧ (∀ k (hk : k < 16), k ≠ s.sp.val → t.stack[k] = s.stack[k]) ∧
      s.KeepsBut t [] [.stack]) ∧
    (s.sp.val = 16 → ∃ t, exec (.call addr) s = .next t ∧ t.pc = s.pc + 2 ∧
      t.log = s.log ++ [.stackOverflow s.pc] ∧ s.KeepsBut t [] [.log])

/-- A CALL followed by a RET comes back to the instruction after the CALL, with the stack pointer as it was (R111, R114). -/
def Obligations.CallThenRetComesBack : Prop :=
  ∀ (s : State) (addr : Addr12), s.sp.val < 16 →
    ∃ t u, exec (.call addr) s = .next t ∧ exec .ret t = .next u ∧ u.pc = s.pc + 2 ∧ u.sp = s.sp ∧
      s.KeepsBut u [] [.stack]

/-- `SYS addr` (R112): under `Nop` only pc + 2; under `Fault` SysFault with the instruction's word. -/
def Obligations.SysAdvancesOrFaults : Prop :=
  ∀ (s : State) (addr : Addr12),
    (s.params.sysMode = .nop → ∃ t, exec (.sys addr) s = .next t ∧ t.pc = s.pc + 2 ∧ s.KeepsBut t [] []) ∧
    (s.params.sysMode = .fault → exec (.sys addr) s = .next (s.raise (.sysFault (encode (.sys addr)))))

/-- `JP addr` (R113): pc becomes the 12-bit target, nothing else changes. -/
def Obligations.JpSetsPc : Prop :=
  ∀ (s : State) (addr : Addr12), ∃ t, exec (.jp addr) s = .next t ∧ t.pc.toNat = addr.toNat ∧ s.KeepsBut t [] []

/-- `JP V0, addr` (R119): pc is nnn plus V0, or plus the register nnn[11:8] under JUMP_OFFSET_REG = Vx, not masked to 12 bits. -/
def Obligations.JpV0AddsOffset : Prop :=
  ∀ (s : State) (addr : Addr12), ∃ t, exec (.jpV0 addr) s = .next t ∧ s.KeepsBut t [] [] ∧
    (s.params.jumpOffsetReg = .v0 → t.pc.toNat = (addr.toNat + (s.readV 0).toNat) % 65536) ∧
    (s.params.jumpOffsetReg = .vx → ∀ r : Reg, r.val = addr.toNat / 256 →
      t.pc.toNat = (addr.toNat + (s.readV r).toNat) % 65536)

/-- The four skips (R115 to R118): pc + 4 where the comparison holds, else pc + 2, and nothing else changes. -/
def Obligations.SkipsAddFourOrTwo : Prop :=
  ∀ (s : State) (x y : Reg) (kk : Byte),
    (∃ t, exec (.seByte x kk) s = .next t ∧ s.KeepsBut t [] [] ∧
      t.pc = s.pc + (if (s.readV x).toNat = kk.toNat then 4 else 2)) ∧
    (∃ t, exec (.sneByte x kk) s = .next t ∧ s.KeepsBut t [] [] ∧
      t.pc = s.pc + (if (s.readV x).toNat = kk.toNat then 2 else 4)) ∧
    (∃ t, exec (.seReg x y) s = .next t ∧ s.KeepsBut t [] [] ∧
      t.pc = s.pc + (if (s.readV x).toNat = (s.readV y).toNat then 4 else 2)) ∧
    (∃ t, exec (.sneReg x y) s = .next t ∧ s.KeepsBut t [] [] ∧
      t.pc = s.pc + (if (s.readV x).toNat = (s.readV y).toNat then 2 else 4))

/-! ### Register operations -/

/-- The operations that define no flag (R130, R131, R132): load immediate, add immediate mod 256, copy; only V[x] changes. -/
def Obligations.LoadsAndAddByteWriteVxOnly : Prop :=
  ∀ (s : State) (x y : Reg) (kk : Byte),
    (∃ t, exec (.ldByte x kk) s = .next t ∧ t.readV x = kk ∧ t.pc = s.pc + 2 ∧ s.KeepsBut t [x] []) ∧
    (∃ t, exec (.addByte x kk) s = .next t ∧ (t.readV x).toNat = ((s.readV x).toNat + kk.toNat) % 256 ∧
      t.pc = s.pc + 2 ∧ s.KeepsBut t [x] []) ∧
    (∃ t, exec (.ldReg x y) s = .next t ∧ t.readV x = s.readV y ∧ t.pc = s.pc + 2 ∧ s.KeepsBut t [x] [])

/-- OR, AND and XOR, bit by bit (R134, R135, R136); only V[x] changes, VF included unless x = F. -/
def Obligations.BitwiseOpsBitByBit : Prop :=
  ∀ (s : State) (x y : Reg),
    (∃ t, exec (.orReg x y) s = .next t ∧ t.pc = s.pc + 2 ∧ s.KeepsBut t [x] [] ∧
      ∀ k, (t.readV x).getLsbD k = ((s.readV x).getLsbD k || (s.readV y).getLsbD k)) ∧
    (∃ t, exec (.andReg x y) s = .next t ∧ t.pc = s.pc + 2 ∧ s.KeepsBut t [x] [] ∧
      ∀ k, (t.readV x).getLsbD k = ((s.readV x).getLsbD k && (s.readV y).getLsbD k)) ∧
    (∃ t, exec (.xorReg x y) s = .next t ∧ t.pc = s.pc + 2 ∧ s.KeepsBut t [x] [] ∧
      ∀ k, (t.readV x).getLsbD k = ((s.readV x).getLsbD k ^^ (s.readV y).getLsbD k))

/-- `ADD Vx, Vy` (R137, R133): the sum mod 256 in V[x] unless x = F, and VF = 1 iff the sum exceeds 255. -/
def Obligations.AddRegSetsCarry : Prop :=
  ∀ (s : State) (x y : Reg), ∃ t, exec (.addReg x y) s = .next t ∧ t.pc = s.pc + 2 ∧ s.KeepsBut t [x, vf] [] ∧
    (x ≠ vf → (t.readV x).toNat = ((s.readV x).toNat + (s.readV y).toNat) % 256) ∧
    (t.readV vf).toNat = if (s.readV x).toNat + (s.readV y).toNat > 255 then 1 else 0

/-- `SUB` and `SUBN` (R138, R140, R133): V[x] - V[y], or V[y] - V[x], mod 256 in V[x] unless x = F, and VF = 1 iff the minuend
is strictly greater. -/
def Obligations.SubAndSubnSetNotBorrow : Prop :=
  ∀ (s : State) (x y : Reg),
    (∃ t, exec (.sub x y) s = .next t ∧ t.pc = s.pc + 2 ∧ s.KeepsBut t [x, vf] [] ∧
      (x ≠ vf → ((t.readV x).toNat : Int) = (((s.readV x).toNat : Int) - (s.readV y).toNat) % 256) ∧
      (t.readV vf).toNat = if (s.readV x).toNat > (s.readV y).toNat then 1 else 0) ∧
    (∃ t, exec (.subn x y) s = .next t ∧ t.pc = s.pc + 2 ∧ s.KeepsBut t [x, vf] [] ∧
      (x ≠ vf → ((t.readV x).toNat : Int) = (((s.readV y).toNat : Int) - (s.readV x).toNat) % 256) ∧
      (t.readV vf).toNat = if (s.readV y).toNat > (s.readV x).toNat then 1 else 0)

/-- `SHR` and `SHL` (R139, R141, R133): half and double the source, V[x] or under SHIFT_SOURCE = Vy V[y], VF the bit moved out. -/
def Obligations.ShiftsMoveOneBitToVf : Prop :=
  ∀ (s : State) (x y : Reg) (v : Byte),
    ((s.params.shiftSource = .vx ∧ v = s.readV x) ∨ (s.params.shiftSource = .vy ∧ v = s.readV y)) →
    (∃ t, exec (.shr x y) s = .next t ∧ t.pc = s.pc + 2 ∧ s.KeepsBut t [x, vf] [] ∧
      (x ≠ vf → (t.readV x).toNat = v.toNat / 2) ∧ (t.readV vf).toNat = v.toNat % 2) ∧
    (∃ t, exec (.shl x y) s = .next t ∧ t.pc = s.pc + 2 ∧ s.KeepsBut t [x, vf] [] ∧
      (x ≠ vf → (t.readV x).toNat = v.toNat * 2 % 256) ∧ (t.readV vf).toNat = v.toNat / 128)

/-- The six flag writers and no others write VF as a flag (R21, R22): an instruction that completes and is none of them leaves
VF alone unless its destination is VF: x = F in a form that writes V[x]. -/
def Obligations.OnlyFlagWritersTouchVf : Prop :=
  ∀ (i : Instr) (s t : State), exec i s = .next t → t.readV vf ≠ s.readV vf →
    (∃ x y, i = .addReg x y ∨ i = .sub x y ∨ i = .shr x y ∨ i = .subn x y ∨ i = .shl x y) ∨
    (∃ x y n, i = .drw x y n) ∨
    (∃ kk, i = .ldByte vf kk ∨ i = .addByte vf kk ∨ i = .rnd vf kk) ∨
    (∃ y, i = .ldReg vf y ∨ i = .orReg vf y ∨ i = .andReg vf y ∨ i = .xorReg vf y) ∨
    i = .ldVxDt vf ∨ i = .ldVxK vf ∨ i = .loadRegs vf

/-! ### Memory and index -/

/-- `LD I, addr`, `ADD I, Vx` and `LD F, Vx` (R150, R151, R152): only I and pc change, and VF is not written. -/
def Obligations.IndexInstructionsSetI : Prop :=
  ∀ (s : State) (addr : Addr12) (x : Reg),
    (∃ t, exec (.ldI addr) s = .next t ∧ t.I.toNat = addr.toNat ∧ t.pc = s.pc + 2 ∧ s.KeepsBut t [] [.index]) ∧
    (∃ t, exec (.addI x) s = .next t ∧ t.I.toNat = (s.I.toNat + (s.readV x).toNat) % 65536 ∧ t.pc = s.pc + 2 ∧
      s.KeepsBut t [] [.index]) ∧
    (∃ t, exec (.ldF x) s = .next t ∧ t.I.toNat = 0x050 + 5 * (s.readV x).toNat ∧ t.pc = s.pc + 2 ∧
      s.KeepsBut t [] [.index])

/-- `LD B, Vx` (R153): where its three addresses exist, hundreds, tens and ones at I, I + 1, I + 2, every other byte as before. -/
def Obligations.LdBStoresDigits : Prop :=
  ∀ (s : State) (x : Reg), s.InRange s.I.toNat 3 →
    ∃ t, exec (.ldB x) s = .next t ∧
      (t.mem.read (s.place s.I.toNat)).toNat = (s.readV x).toNat / 100 ∧
      (t.mem.read (s.place (s.I.toNat + 1))).toNat = (s.readV x).toNat / 10 % 10 ∧
      (t.mem.read (s.place (s.I.toNat + 2))).toNat = (s.readV x).toNat % 10 ∧
      (∀ a, (∀ k, k < 3 → a ≠ s.place (s.I.toNat + k)) → t.mem.read a = s.mem.read a) ∧
      t.pc = s.pc + 2 ∧ s.KeepsBut t [] [.memory]

/-- `LD [I], Vx` (R154): where its addresses exist, V[k] at I + k for k = 0 to x, every other byte as before, I as
LOADSTORE_I_MODE says. -/
def Obligations.StoreRegsStoresV0ToVx : Prop :=
  ∀ (s : State) (x : Reg), s.InRange s.I.toNat (x.val + 1) →
    ∃ t, exec (.storeRegs x) s = .next t ∧
      (∀ k : Reg, k.val ≤ x.val → t.mem.read (s.place (s.I.toNat + k.val)) = s.readV k) ∧
      (∀ a, (∀ k, k ≤ x.val → a ≠ s.place (s.I.toNat + k)) → t.mem.read a = s.mem.read a) ∧
      (s.params.loadStoreIMode = .unchanged → t.I = s.I) ∧
      (s.params.loadStoreIMode = .increment → t.I.toNat = (s.I.toNat + x.val + 1) % 65536) ∧
      t.pc = s.pc + 2 ∧ s.KeepsBut t [] [.memory, .index]

/-- `LD Vx, [I]` (R155): where its addresses exist, V[k] from I + k for k = 0 to x, the registers above x as before, I as
LOADSTORE_I_MODE says, memory unchanged. -/
def Obligations.LoadRegsLoadsV0ToVx : Prop :=
  ∀ (s : State) (x : Reg), s.InRange s.I.toNat (x.val + 1) →
    ∃ t, exec (.loadRegs x) s = .next t ∧
      (∀ k : Reg, k.val ≤ x.val → t.readV k = s.mem.read (s.place (s.I.toNat + k.val))) ∧
      (s.params.loadStoreIMode = .unchanged → t.I = s.I) ∧
      (s.params.loadStoreIMode = .increment → t.I.toNat = (s.I.toNat + x.val + 1) % 65536) ∧
      t.pc = s.pc + 2 ∧ s.KeepsBut t ((List.finRange 16).filter fun k => k.val ≤ x.val) [.index]

/-- An access above 0xFFF under ADDR_POLICY = Fault (R57): the four instructions that access memory raise AddressFault with
the lowest such address and write nothing else. -/
def Obligations.AccessAboveMemoryFaults : Prop :=
  ∀ (s : State) (i : Instr) (n : Nat), s.params.addrPolicy = .fault →
    ((∃ x, i = .ldB x ∧ n = 3) ∨ (∃ x, i = .storeRegs x ∧ n = x.val + 1) ∨ (∃ x, i = .loadRegs x ∧ n = x.val + 1) ∨
      (∃ x y m, i = .drw x y m ∧ n = m.toNat ∧ 0 < n)) →
    0xFFF < s.I.toNat + n - 1 →
    ∃ a, exec i s = .next (s.raise (.addressFault a)) ∧ 0xFFF < a ∧ s.I.toNat ≤ a ∧ a < s.I.toNat + n ∧
      ∀ b, s.I.toNat ≤ b → 0xFFF < b → a ≤ b

/-- An effective address names the byte at itself under ADDR_POLICY = Fault and the byte at itself mod 4096 under Wrap12 (R57). A
byte written at an effective address that exists is the byte then read at every effective address of the same place, 4096
apart under Wrap12, and every other byte and all other state are as before (R55, R56, R60). -/
def Obligations.WriteThenReadMemory : Prop :=
  ∀ (s : State) (e f : Nat) (v : Byte), s.InRange e 1 →
    (s.params.addrPolicy = .fault → s.place f = f ∧ s.readByte f = s.mem.read f) ∧
    (s.params.addrPolicy = .wrap12 → s.place f = f % 4096 ∧ s.readByte f = s.mem.read (f % 4096)) ∧
    (s.writeByte e v).readByte f = (if s.place f = s.place e then v else s.readByte f) ∧
    (s.params.addrPolicy = .wrap12 → (s.writeByte e v).readByte (e + 4096) = v) ∧
    (s.writeByte e v).pc = s.pc ∧ s.KeepsBut (s.writeByte e v) [] [.memory]

/-- Canonical memories that read alike at every address are the same list (the model's own form, notes/assumptions/11.md). -/
def Obligations.CanonicalMemoriesReadingAlikeAreEqual : Prop :=
  ∀ m n : Memory, m.wf = true → n.wf = true → (∀ a, m.read a = n.read a) → m = n

/-! ### Random and display -/

/-- `RND Vx, byte` (R160): V[x] is the drawn byte AND the immediate, whatever byte is drawn; the draw counter,
the model's own (notes/assumptions/6.md), goes up by one. -/
def Obligations.RndMasksTheDrawnByte : Prop :=
  ∀ (s : State) (x : Reg) (kk : Byte), ∃ t, exec (.rnd x kk) s = .next t ∧
    (∀ k, (t.readV x).getLsbD k = ((Config.randomByte s.draws).getLsbD k && kk.getLsbD k)) ∧
    t.draws = s.draws + 1 ∧ t.pc = s.pc + 2 ∧ s.KeepsBut t [x] [.draws]

/-- `DRW` (R161 to R164): where its addresses exist, exactly the pixels under a 1 bit of the sprite are inverted, VF = 1 iff
one of them was lit, dirty is set, and nothing else changes but pc. -/
def Obligations.DrwInvertsCoveredPixels : Prop :=
  ∀ (s : State) (x y : Reg) (n : Nibble), s.InRange s.I.toNat n.toNat →
    ∃ t, exec (.drw x y n) s = .next t ∧
      (∀ c r, s.SpriteCovers x y n c r → t.fb.pixel c r = s.fb.pixel c r ^^^ 1) ∧
      (∀ c r, ¬ s.SpriteCovers x y n c r → t.fb.pixel c r = s.fb.pixel c r) ∧
      ((∃ c r, s.SpriteCovers x y n c r ∧ s.fb.pixel c r = 1) → t.readV vf = 1) ∧
      ((¬ ∃ c r, s.SpriteCovers x y n c r ∧ s.fb.pixel c r = 1) → t.readV vf = 0) ∧
      t.dirty = 1 ∧ t.pc = s.pc + 2 ∧ s.KeepsBut t [vf] [.pixels, .dirty]

/-- The same sprite drawn twice at one place leaves the frame buffer as it was, and the second draw collides wherever the
sprite covers a pixel the first one lit (R161, R164). -/
def Obligations.DrawTwiceErases : Prop :=
  ∀ (s : State) (x y : Reg) (n : Nibble), x ≠ vf → y ≠ vf → s.InRange s.I.toNat n.toNat →
    ∃ t u, exec (.drw x y n) s = .next t ∧ exec (.drw x y n) t = .next u ∧ u.fb = s.fb ∧
      ((∃ c r, s.SpriteCovers x y n c r ∧ s.fb.pixel c r = 0) → u.readV vf = 1)

/-! ### Input -/

/-- `SKP` and `SKNP` (R170, R171, R173): with V[x] at most 15, or masked to its low 4 bits, skip iff that key is down or up. -/
def Obligations.SkpAndSknpTestTheKey : Prop :=
  ∀ (s : State) (x k : Reg), (s.params.keyIndexPolicy = .maskLow4 ∨ (s.readV x).toNat ≤ 15) →
    k.val = (s.readV x).toNat % 16 →
    (∃ t, exec (.skp x) s = .next t ∧ s.KeepsBut t [] [] ∧
      t.pc = s.pc + (if s.keys[k.val] = 0 then 2 else 4)) ∧
    (∃ t, exec (.sknp x) s = .next t ∧ s.KeepsBut t [] [] ∧
      t.pc = s.pc + (if s.keys[k.val] = 0 then 4 else 2))

/-- SKP and SKNP with V[x] above 15 under KEY_INDEX_POLICY = Fault raise KeyIndexFault(V[x]) (R173). -/
def Obligations.KeyIndexAbove15Faults : Prop :=
  ∀ (s : State) (x : Reg), s.params.keyIndexPolicy = .fault → 15 < (s.readV x).toNat →
    exec (.skp x) s = .next (s.raise (.keyIndexFault (s.readV x))) ∧
    exec (.sknp x) s = .next (s.raise (.keyIndexFault (s.readV x)))

/-- `LD Vx, K` (R172): with no key down nothing changes, pc included; with a key down V[x] gets a key that is down. -/
def Obligations.KeyWaitPollsOrTakesADownKey : Prop :=
  ∀ (s : State) (x : Reg),
    ((∀ k : Reg, s.keys[k.val] = 0) → exec (.ldVxK x) s = .next s) ∧
    ((∃ k : Reg, s.keys[k.val] ≠ 0) → ∃ t, exec (.ldVxK x) s = .next t ∧
      (∃ k : Reg, s.keys[k.val] ≠ 0 ∧ (t.readV x).toNat = k.val) ∧ t.pc = s.pc + 2 ∧ s.KeepsBut t [x] [.draws])

/-! ### Timers -/

/-- The three timer instructions (R180, R181, R182). -/
def Obligations.TimerInstructionsCopy : Prop :=
  ∀ (s : State) (x : Reg),
    (∃ t, exec (.ldVxDt x) s = .next t ∧ t.readV x = s.DT ∧ t.pc = s.pc + 2 ∧ s.KeepsBut t [x] []) ∧
    (∃ t, exec (.ldDtVx x) s = .next t ∧ t.DT = s.readV x ∧ t.pc = s.pc + 2 ∧ s.KeepsBut t [] [.delayTimer]) ∧
    (∃ t, exec (.ldStVx x) s = .next t ∧ t.ST = s.readV x ∧ t.pc = s.pc + 2 ∧ s.KeepsBut t [] [.soundTimer])

/-- `n` timer cycles take `n` off both timers, clamped at 0, and change nothing else (R233). -/
def Obligations.TimerCyclesCountDown : Prop :=
  ∀ (n : Nat) (s : State), (runTimers n s).DT.toNat = s.DT.toNat - n ∧ (runTimers n s).ST.toNat = s.ST.toNat - n ∧
    (runTimers n s).pc = s.pc ∧ s.KeepsBut (runTimers n s) [] [.delayTimer, .soundTimer]

/-! ### Rules about every instruction -/

/-- Every instruction may execute at any time (R211): exec answers a next state for every instruction at every
state, a fatal fault being a next state whose status is `Halted` (the model's reading, notes/assumptions/3.md). -/
def Obligations.EveryInstructionAnswersNext : Prop :=
  ∀ (i : Instr) (s : State), ∃ t, exec i s = .next t

/-- Fatal faults are atomic (R11): an instruction keeps the status and the host call in progress, or it raises and writes nothing
else. -/
def Obligations.RaisingInstructionWritesNothingElse : Prop :=
  ∀ (i : Instr) (s t : State), exec i s = .next t → (t.status = s.status ∧ t.call = s.call) ∨ ∃ f, t = s.raise f

/-- What an instruction leaves in pc (R23, R101): what `pcAfter` gives it, which is pc + 2, pc + 4 where the skip's comparison
holds, the target of a jump, call or return, or pc itself for `LD Vx, K` with no key down; a fatal fault leaves pc as it was. -/
def Obligations.HandlersSetPc : Prop :=
  ∀ (i : Instr) (s t : State), exec i s = .next t →
    t.pc = s.pcAfter i ∨ (t.pc = s.pc ∧ ∃ f, t = s.raise f)

/-- Which instructions write what (R25 to R27, R30, R31, R34, R35, R50): I, the stack, the timers, memory, the pixels, the
dirty flag and the log change only by the instructions named. -/
def Obligations.PartsChangeOnlyByTheirWriters : Prop :=
  ∀ (i : Instr) (s t : State), exec i s = .next t →
    (t.I ≠ s.I → (∃ addr, i = .ldI addr) ∨ ∃ x, i = .addI x ∨ i = .ldF x ∨
      (s.params.loadStoreIMode = .increment ∧ (i = .storeRegs x ∨ i = .loadRegs x))) ∧
    (t.stack ≠ s.stack → ∃ addr, i = .call addr) ∧
    (t.sp ≠ s.sp → i = .ret ∨ ∃ addr, i = .call addr) ∧
    (t.DT ≠ s.DT → ∃ x, i = .ldDtVx x) ∧
    (t.ST ≠ s.ST → ∃ x, i = .ldStVx x) ∧
    (t.mem ≠ s.mem → ∃ x, i = .ldB x ∨ i = .storeRegs x) ∧
    (t.fb ≠ s.fb ∨ t.dirty ≠ s.dirty → i = .cls ∨ ∃ x y n, i = .drw x y n) ∧
    (t.log ≠ s.log → i = .ret ∨ ∃ addr, i = .call addr)

/-- No instruction writes the key state, the accumulators or the named parameters (R36, R37, R7), nor the host call in progress
but by a fatal fault, which ends it (R208). -/
def Obligations.NoInstructionWritesKeysOrEngine : Prop :=
  ∀ (i : Instr) (s t : State), exec i s = .next t →
    t.keys = s.keys ∧ t.accCpu = s.accCpu ∧ t.accTmr = s.accTmr ∧ t.params = s.params ∧ t.inputs = s.inputs ∧
      (t.call = s.call ∨ ∃ f, t = s.raise f)

/-! ### The host's moves -/

/-- Between host calls a step takes the host's next action (R226), and with none to take the machine does not advance and keeps
all its state (R237, R240; a halted one is HaltedLeavesOnlyByLoad's); during a host call no host action is taken and the keys
stand (R226, R263). The queue is the model's own (notes/assumptions/4.md). -/
def Obligations.StepTakesQueuedHostAction : Prop :=
  ∀ s : State,
    (∀ a rest, s.call = none → s.inputs = a :: rest → step s = hostAction a (s.setInputs rest)) ∧
    (s.call = none → s.inputs = [] → (∀ f, s.status ≠ .halted f) → step s = .next s) ∧
    (∀ c t, s.call = some c → step s = .next t → t.inputs = s.inputs ∧ t.keys = s.keys)

/-- A running engine's host call at a clock of hz, from its start to its end (R231, R232, R234): the counts are the whole cycles of
the accumulators, held in thousandths (notes/assumptions/10.md), the remainders stay, and the blocks run in the order
TIMER_BLOCK_ORDER says, in one order or the other under `Either`, which uses up one free draw (the draw counter is the model's
own, notes/assumptions/6.md and 8.md). -/
def Obligations.HostCallRunsBothBlocks : Prop :=
  ∀ (s : State) (ms hz : Nat), s.status = .running → s.params.cpuClockHz = some hz →
    let nCpu := (s.accCpu + ms * hz) / 1000
    let nTmr := (s.accTmr + ms * 60) / 1000
    let s' := { s with accCpu := (s.accCpu + ms * hz) % 1000, accTmr := (s.accTmr + ms * 60) % 1000, call := none }
    let s'' := { s' with draws := s.draws + 1 }
    (s.params.timerBlockOrder = .cpuFirst → wholeCall ms s = runCpuFirst nCpu nTmr s') ∧
    (s.params.timerBlockOrder = .timerFirst → wholeCall ms s = runTimersFirst nCpu nTmr s') ∧
    (s.params.timerBlockOrder = .either →
      wholeCall ms s = runCpuFirst nCpu nTmr s'' ∨ wholeCall ms s = runTimersFirst nCpu nTmr s'')

/-- The two blocks (R208, R231, R234): `runCpu` runs no cycle for 0, else one cycle after another while the status is `Running`;
with the CPU block first a fatal fault leaves the timer block unrun; with the timer block first the CPU block runs after all its
timer cycles. A running engine's host call in progress is run by the machine's steps to exactly that end: one step a cycle, as
many steps as the call has cycles left unless a fatal fault ends it sooner, and no call in progress afterwards. (That a call in
progress has a cycle left is part of `Inv`, which EveryStepKeepsInv states; one step a cycle is the model's own grain,
notes/assumptions/5.md.) -/
def Obligations.BlocksRunTheirCycles : Prop :=
  ∀ (n m : Nat) (s t : State),
    runCpu 0 s = .next s ∧
    (s.status = .running → cycle s = .next t → runCpu (n + 1) s = runCpu n t) ∧
    (s.status ≠ .running → runCpu n s = .next s) ∧
    (runCpu n s = .next t → t.status = .running → runCpuFirst n m s = .next (runTimers m t)) ∧
    (runCpu n s = .next t → t.status ≠ .running → runCpuFirst n m s = .next t) ∧
    runTimersFirst n m s = runCpu n (runTimers m s) ∧
    (∀ c, s.call = some c → s.status = .running → 0 < c.cpu + c.tmr →
      ∃ k u, k ≤ c.cpu + c.tmr ∧ core.run k s = .next u ∧ finishCall s = .next u ∧ u.call = none ∧
        (u.status = .running → k = c.cpu + c.tmr))

/-- A running engine with its clock supplied carries every host call to its end, whatever the program does, and keeps exactly the
fractional remainders (R231), in thousandths (notes/assumptions/10.md): no cycle of the call touches the accumulators. -/
def Obligations.HostCallKeepsRemainders : Prop :=
  ∀ (s : State) (ms hz : Nat), s.status = .running → s.params.cpuClockHz = some hz →
    ∃ t, wholeCall ms s = .next t ∧ t.call = none ∧ t.accCpu = (s.accCpu + ms * hz) % 1000 ∧ t.accTmr = (s.accTmr + ms * 60) % 1000 ∧
      t.params = s.params ∧ t.keys = s.keys ∧ t.inputs = s.inputs

/-- Cycles are never lost or double-counted (R231): from empty accumulators, over any sequence of host calls after which the
engine still runs, the cycles counted are floor(T * hz / 1000) and floor(T * 60 / 1000) for the total time T, the accumulators
hold what is left over in thousandths (notes/assumptions/10.md), and the machine gets there with the calls queued in exactly one
step for each call and one for each cycle counted (the queue: notes/assumptions/4.md). -/
def Obligations.LongRunCountsAreExact : Prop :=
  ∀ (calls : List Nat) (s t : State) (hz : Nat), s.params.cpuClockHz = some hz → s.accCpu = 0 → s.accTmr = 0 →
    runCalls calls s = .next t → t.status = .running →
    cyclesCounted hz s.accCpu calls = calls.sum * hz / 1000 ∧
    cyclesCounted 60 s.accTmr calls = calls.sum * 60 / 1000 ∧
    t.accCpu = calls.sum * hz % 1000 ∧ t.accTmr = calls.sum * 60 % 1000 ∧
    (s.call = none →
      core.run (calls.length + calls.sum * hz / 1000 + calls.sum * 60 / 1000) { s with inputs := calls.map .hostCall } =
        .next { t with inputs := [] })

/-- A host call with no CPU_CLOCK_HZ supplied has no step: the parameter is OPEN and must be supplied (R7; the refusal is the
model's choice, notes/assumptions/2.md). -/
def Obligations.HostCallNeedsItsClock : Prop :=
  ∀ (s : State) (ms : Nat), s.status = .running → s.params.cpuClockHz = none →
    hostCall ms s = .refused .clockNotSupplied

/-- The key vector is written wholesale and a frame read clears dirty; neither changes anything else (R228, R229). That
both act on a halted machine too is the model's reading of R204 (DEDUCED, notes/assumptions/16.md). -/
def Obligations.KeyWriteAndFrameRead : Prop :=
  ∀ (s : State) (v : Vector Byte 16), s.status ≠ .unloaded →
    (∃ t, hostAction (.writeKeys v) s = .next t ∧ t = { s with keys := v }) ∧
    (∃ t, hostAction .readFrame s = .next t ∧ t = { s with dirty := 0 }) ∧
    s.frame = (s.fb, s.dirty) ∧ (s.soundOn = true ↔ 0 < s.ST.toNat)

/-- A ROM of at most 3584 bytes (R252, R256): everything is reset whatever came before, FONT stands at 0x050, the ROM from
0x200, every other byte is 0 (R251), and the engine runs with no host call in progress. That the parameters stay is the model's
choice (notes/assumptions/1.md). -/
def Obligations.LoadResetsAndCopiesRom : Prop :=
  ∀ (s : State) (rom : List Byte), rom.length ≤ 3584 →
    ∃ t, loadRom (some rom) s = .next t ∧ t.status = .running ∧ t.pc = 0x200 ∧ t.I = 0 ∧ t.sp.val = 0 ∧ t.DT = 0 ∧
      t.ST = 0 ∧ t.dirty = 0 ∧ t.accCpu = 0 ∧ t.accTmr = 0 ∧ t.log = [] ∧ t.call = none ∧ t.params = s.params ∧
      (∀ r, t.readV r = 0) ∧ (∀ k (hk : k < 16), t.stack[k] = 0) ∧ (∀ k (hk : k < 16), t.keys[k] = 0) ∧
      (∀ c r, t.fb.pixel c r = 0) ∧
      (∀ k (hk : k < 80), t.mem.read (0x050 + k) = s.params.font[k]) ∧
      (∀ k (hk : k < rom.length), t.mem.read (0x200 + k) = rom[k]) ∧
      (∀ a, a < 4096 → (a < 0x050 ∨ 0x09F < a) → (a < 0x200 ∨ 0x200 + rom.length ≤ a) → t.mem.read a = 0)

/-- A load that fails halts the engine with RomReadFailure or, above 3584 bytes, RomTooLarge and the length, from any state
(R253, R254); nothing is said of the other elements. -/
def Obligations.FailedLoadHalts : Prop :=
  ∀ (s : State) (rom : List Byte),
    (∃ t, loadRom none s = .next t ∧ t.status = .halted .romReadFailure) ∧
    (3584 < rom.length → ∃ t, loadRom (some rom) s = .next t ∧ t.status = .halted (.romTooLarge rom.length))

/-! ### Reset and the invariant -/

/-- The reset state (R45): every element at the value of the table, memory the standard font at 0x050–0x09F and 0 elsewhere,
and the status `Running` as after the load of an empty ROM (the model's choice, notes/assumptions/12.md). -/
def Obligations.ResetHoldsTheTablesValues : Prop :=
  State.reset.pc = 0x200 ∧ State.reset.I = 0 ∧ State.reset.sp.val = 0 ∧ State.reset.DT = 0 ∧ State.reset.ST = 0 ∧
    State.reset.dirty = 0 ∧ State.reset.accCpu = 0 ∧ State.reset.accTmr = 0 ∧ State.reset.log = [] ∧
    State.reset.status = .running ∧ State.reset.call = none ∧
    (∀ r, State.reset.readV r = 0) ∧ (∀ k (hk : k < 16), State.reset.stack[k] = 0) ∧
    (∀ k (hk : k < 16), State.reset.keys[k] = 0) ∧ (∀ c r, State.reset.fb.pixel c r = 0) ∧
    (∀ k (hk : k < 80), State.reset.mem.read (0x050 + k) = Config.standardFont[k]) ∧
    (∀ a, a < 4096 → (a < 0x050 ∨ 0x09F < a) → State.reset.mem.read a = 0)

/-- The invariant holds at reset (its memory form and the host call in progress are the model's own, notes/assumptions/11.md and
5.md). -/
def Obligations.ResetMeetsInv : Prop := State.reset.Inv

/-- Every step keeps the invariant, from every state that meets it: memory stays canonical (the model's own form,
notes/assumptions/11.md), each accumulator below one cycle (R37), and a host call in progress a running engine's with a cycle
left (R208, R226, notes/assumptions/5.md), through every instruction, host call, ROM load and other host action. -/
def Obligations.EveryStepKeepsInv : Prop :=
  ∀ s t : State, s.Inv → step s = .next t → t.Inv

/-- No step changes the named parameters, which the model holds in its state (R7, notes/assumptions/1.md). -/
def Obligations.EveryStepKeepsParams : Prop :=
  ∀ s t : State, step s = .next t → t.params = s.params
end

