-- ==== Sys2Proof/Laws/Encoding.lean ====
section
/-! SUPPORT. The bits of a word put together from fields (spec/30_encoding.md R82, R83): which field each bit lies in, the fields
read back, and the fixed bits under each mask of R94. -/

namespace Sys2Proof

/-! ### Bits -/

theorem getLsbD_nibble_addr (n : BitVec 4) (a : BitVec 12) (i : Nat) :
    (n ++ a : Word).getLsbD i = if i < 12 then a.getLsbD i else n.getLsbD (i - 12) := BitVec.getLsbD_append

theorem getLsbD_nibble_reg_byte (n r : BitVec 4) (b : BitVec 8) (i : Nat) :
    (n ++ r ++ b : Word).getLsbD i =
      if i < 8 then b.getLsbD i else if i < 12 then r.getLsbD (i - 8) else n.getLsbD (i - 12) := by
  refine BitVec.getLsbD_append.trans ?_
  rw [BitVec.getLsbD_append]
  split
  · rfl
  · rw [if_congr (show i - 8 < 4 ↔ i < 12 by omega) rfl rfl, Nat.sub_sub]

theorem getLsbD_four_nibbles (n r q l : BitVec 4) (i : Nat) :
    (n ++ r ++ q ++ l : Word).getLsbD i =
      if i < 4 then l.getLsbD i else if i < 8 then q.getLsbD (i - 4)
      else if i < 12 then r.getLsbD (i - 8) else n.getLsbD (i - 12) := by
  refine BitVec.getLsbD_append.trans ?_
  rw [BitVec.getLsbD_append, BitVec.getLsbD_append]
  split
  · rfl
  · rw [if_congr (show i - 4 < 4 ↔ i < 8 by omega) rfl rfl, if_congr (show i - 4 - 4 < 4 ↔ i < 12 by omega) rfl rfl,
      Nat.sub_sub, Nat.sub_sub]

theorem getLsbD_two_bytes (h l : BitVec 8) (i : Nat) :
    (h ++ l : Word).getLsbD i = if i < 8 then l.getLsbD i else h.getLsbD (i - 8) := BitVec.getLsbD_append

/-- Two words with the same 16 bits are the same. -/
theorem word_ext {v w : Word} (h : ∀ i, i < 16 → v.getLsbD i = w.getLsbD i) : v = w :=
  BitVec.eq_of_getLsbD_eq h

/-! ### Fixed bits under a mask -/

theorem nibble_addr_and_F000 (n : BitVec 4) (a : BitVec 12) : (n ++ a : Word) &&& 0xF000 = n ++ 0#12 := by
  refine word_ext fun i hi => ?_
  simp only [BitVec.getLsbD_and, getLsbD_nibble_addr]
  interval_cases i <;> simp [-BitVec.getLsbD_eq_getElem]

theorem nibble_reg_byte_and_F000 (n r : BitVec 4) (b : BitVec 8) : (n ++ r ++ b : Word) &&& 0xF000 = n ++ 0#12 := by
  refine word_ext fun i hi => ?_
  simp only [BitVec.getLsbD_and, getLsbD_nibble_addr, getLsbD_nibble_reg_byte]
  interval_cases i <;> simp [-BitVec.getLsbD_eq_getElem]

theorem nibble_reg_byte_and_F0FF (n r : BitVec 4) (b : BitVec 8) :
    (n ++ r ++ b : Word) &&& 0xF0FF = n ++ 0#4 ++ b := by
  refine word_ext fun i hi => ?_
  simp only [BitVec.getLsbD_and, getLsbD_nibble_reg_byte]
  interval_cases i <;> simp [-BitVec.getLsbD_eq_getElem]

theorem four_nibbles_and_F000 (n r q l : BitVec 4) : (n ++ r ++ q ++ l : Word) &&& 0xF000 = n ++ 0#12 := by
  refine word_ext fun i hi => ?_
  simp only [BitVec.getLsbD_and, getLsbD_nibble_addr, getLsbD_four_nibbles]
  interval_cases i <;> simp [-BitVec.getLsbD_eq_getElem]

theorem four_nibbles_and_F00F (n r q l : BitVec 4) :
    (n ++ r ++ q ++ l : Word) &&& 0xF00F = n ++ 0#4 ++ 0#4 ++ l := by
  refine word_ext fun i hi => ?_
  simp only [BitVec.getLsbD_and, getLsbD_four_nibbles]
  interval_cases i <;> simp [-BitVec.getLsbD_eq_getElem]

/-- Every word is its top nibble and its `addr` field. -/
theorem word_eq_nibble_addr (w : Word) : w = w.extractLsb' 12 4 ++ addrField w := by
  refine word_ext fun i hi => ?_
  simp only [getLsbD_nibble_addr, addrField, BitVec.getLsbD_extractLsb']
  interval_cases i <;> simp [-BitVec.getLsbD_eq_getElem]

/-- Every word is its four nibbles. -/
theorem word_eq_four_nibbles (w : Word) :
    w = w.extractLsb' 12 4 ++ w.extractLsb' 8 4 ++ w.extractLsb' 4 4 ++ nibbleField w := by
  refine word_ext fun i hi => ?_
  simp only [getLsbD_four_nibbles, nibbleField, BitVec.getLsbD_extractLsb']
  interval_cases i <;> simp [-BitVec.getLsbD_eq_getElem]

/-- Every word is its top nibble, its `x` nibble and its `byte` field. -/
theorem word_eq_nibble_reg_byte (w : Word) : w = w.extractLsb' 12 4 ++ w.extractLsb' 8 4 ++ byteField w := by
  refine word_ext fun i hi => ?_
  simp only [getLsbD_nibble_reg_byte, byteField, BitVec.getLsbD_extractLsb']
  interval_cases i <;> simp [-BitVec.getLsbD_eq_getElem]

/-! ### Register fields -/

@[simp] theorem regOfBits_regBits (r : Reg) : regOfBits (regBits r) = r := by
  apply Fin.ext
  simp only [regOfBits, regBits, BitVec.toNat_ofNat]
  have := r.isLt
  omega

@[simp] theorem regBits_regOfBits (b : BitVec 4) : regBits (regOfBits b) = b := by
  simp [regOfBits, regBits]

/-! ### Fields read back -/

@[simp] theorem addrField_nibble_addr (n : BitVec 4) (a : BitVec 12) : addrField (n ++ a : Word) = a := by
  apply BitVec.eq_of_getLsbD_eq
  intro i hi
  simp only [addrField, BitVec.getLsbD_extractLsb', getLsbD_nibble_addr]
  simp [hi]

@[simp] theorem byteField_nibble_reg_byte (n r : BitVec 4) (b : BitVec 8) : byteField (n ++ r ++ b : Word) = b := by
  apply BitVec.eq_of_getLsbD_eq
  intro i hi
  simp only [byteField, BitVec.getLsbD_extractLsb', getLsbD_nibble_reg_byte]
  simp [hi]

@[simp] theorem xField_nibble_reg_byte (n r : BitVec 4) (b : BitVec 8) : xField (n ++ r ++ b : Word) = regOfBits r := by
  simp only [xField]
  congr 1
  apply BitVec.eq_of_getLsbD_eq
  intro i hi
  simp only [BitVec.getLsbD_extractLsb', getLsbD_nibble_reg_byte]
  interval_cases i <;> simp [-BitVec.getLsbD_eq_getElem]

@[simp] theorem xField_four_nibbles (n r q l : BitVec 4) : xField (n ++ r ++ q ++ l : Word) = regOfBits r := by
  simp only [xField]
  congr 1
  apply BitVec.eq_of_getLsbD_eq
  intro i hi
  simp only [BitVec.getLsbD_extractLsb', getLsbD_four_nibbles]
  interval_cases i <;> simp [-BitVec.getLsbD_eq_getElem]

@[simp] theorem yField_four_nibbles (n r q l : BitVec 4) : yField (n ++ r ++ q ++ l : Word) = regOfBits q := by
  simp only [yField]
  congr 1
  apply BitVec.eq_of_getLsbD_eq
  intro i hi
  simp only [BitVec.getLsbD_extractLsb', getLsbD_four_nibbles]
  interval_cases i <;> simp [-BitVec.getLsbD_eq_getElem]

@[simp] theorem nibbleField_four_nibbles (n r q l : BitVec 4) : nibbleField (n ++ r ++ q ++ l : Word) = l := by
  apply BitVec.eq_of_getLsbD_eq
  intro i hi
  simp only [nibbleField, BitVec.getLsbD_extractLsb', getLsbD_four_nibbles]
  interval_cases i <;> simp [-BitVec.getLsbD_eq_getElem]

/-! ### Walking the table -/

/-- A word's bits under a mask that keeps the top nibble give its top nibble. -/
theorem and_F000_of_and {w m p : Word} (hm : m &&& 0xF000 = 0xF000) (h : w &&& m = p) : w &&& 0xF000 = p &&& 0xF000 := by
  rw [← h, BitVec.and_assoc, hm]

/-- A row with another top nibble does not match. -/
theorem not_matches_of_top {r : OpcodeRow} {w : Word} (hm : r.mask &&& 0xF000 = 0xF000)
    (hp : w &&& 0xF000 ≠ r.pattern &&& 0xF000) : r.matchesWord w = false := by
  rw [OpcodeRow.matchesWord, beq_eq_false_iff_ne]
  exact fun h => hp (and_F000_of_and hm h)

/-- The first row that matches is the one selected (R87). -/
theorem find_cons {l : List OpcodeRow} {r : OpcodeRow} {w : Word} :
    ((r :: l).find? fun r => r.matchesWord w) = if r.matchesWord w = true then some r
      else l.find? fun r => r.matchesWord w := by
  cases h : r.matchesWord w <;> simp [List.find?, h]

/-! ### Bytes -/

/-- The two bytes of a word in memory order make the word again. -/
theorem bytes_of_word (w : Word) : (w.extractLsb' 8 8 ++ w.extractLsb' 0 8 : Word) = w := by
  refine word_ext fun i hi => ?_
  simp only [getLsbD_two_bytes, BitVec.getLsbD_extractLsb']
  interval_cases i <;> simp [-BitVec.getLsbD_eq_getElem]

/-- Decoding a word's two bytes decodes the word. -/
theorem decodeBytes_wordBytes (w : Word) (rest : List Byte) :
    decodeBytes (wordBytes w ++ rest) =
      match decode w with
      | some i => .ok i rest
      | none => .unknownOpcode w :=
  congrArg (fun v => match decode v with
    | some i => Decoded.ok i rest
    | none => Decoded.unknownOpcode v) (bytes_of_word w)

end Sys2Proof
end

