-- ==== Sys2Proof/Laws/State.lean ====
section
/-! SUPPORT. Beside the state: one lemma per field per update, and how the derived updates and reads reduce to them. -/

namespace Sys2Proof.Machine

/-! ### writeV -/

@[simp] theorem State.writeV_V (s : State) (x : Reg) (v : Byte) : (s.writeV x v).V = s.V.set x.val v := rfl
@[simp] theorem State.writeV_I (s : State) (x : Reg) (v : Byte) : (s.writeV x v).I = s.I := rfl
@[simp] theorem State.writeV_pc (s : State) (x : Reg) (v : Byte) : (s.writeV x v).pc = s.pc := rfl
@[simp] theorem State.writeV_stack (s : State) (x : Reg) (v : Byte) : (s.writeV x v).stack = s.stack := rfl
@[simp] theorem State.writeV_sp (s : State) (x : Reg) (v : Byte) : (s.writeV x v).sp = s.sp := rfl
@[simp] theorem State.writeV_DT (s : State) (x : Reg) (v : Byte) : (s.writeV x v).DT = s.DT := rfl
@[simp] theorem State.writeV_ST (s : State) (x : Reg) (v : Byte) : (s.writeV x v).ST = s.ST := rfl
@[simp] theorem State.writeV_mem (s : State) (x : Reg) (v : Byte) : (s.writeV x v).mem = s.mem := rfl
@[simp] theorem State.writeV_fb (s : State) (x : Reg) (v : Byte) : (s.writeV x v).fb = s.fb := rfl
@[simp] theorem State.writeV_dirty (s : State) (x : Reg) (v : Byte) : (s.writeV x v).dirty = s.dirty := rfl
@[simp] theorem State.writeV_keys (s : State) (x : Reg) (v : Byte) : (s.writeV x v).keys = s.keys := rfl
@[simp] theorem State.writeV_accCpu (s : State) (x : Reg) (v : Byte) : (s.writeV x v).accCpu = s.accCpu := rfl
@[simp] theorem State.writeV_accTmr (s : State) (x : Reg) (v : Byte) : (s.writeV x v).accTmr = s.accTmr := rfl
@[simp] theorem State.writeV_status (s : State) (x : Reg) (v : Byte) : (s.writeV x v).status = s.status := rfl
@[simp] theorem State.writeV_log (s : State) (x : Reg) (v : Byte) : (s.writeV x v).log = s.log := rfl
@[simp] theorem State.writeV_call (s : State) (x : Reg) (v : Byte) : (s.writeV x v).call = s.call := rfl
@[simp] theorem State.writeV_params (s : State) (x : Reg) (v : Byte) : (s.writeV x v).params = s.params := rfl
@[simp] theorem State.writeV_inputs (s : State) (x : Reg) (v : Byte) : (s.writeV x v).inputs = s.inputs := rfl
@[simp] theorem State.writeV_draws (s : State) (x : Reg) (v : Byte) : (s.writeV x v).draws = s.draws := rfl
@[simp] theorem State.writeV_readByte (s : State) (x : Reg) (v : Byte) (n : Nat) : (s.writeV x v).readByte n = s.readByte n := rfl

/-! ### setV -/

@[simp] theorem State.setV_V (s : State) (v : Vector Byte 16) : (s.setV v).V = v := rfl
@[simp] theorem State.setV_I (s : State) (v : Vector Byte 16) : (s.setV v).I = s.I := rfl
@[simp] theorem State.setV_pc (s : State) (v : Vector Byte 16) : (s.setV v).pc = s.pc := rfl
@[simp] theorem State.setV_stack (s : State) (v : Vector Byte 16) : (s.setV v).stack = s.stack := rfl
@[simp] theorem State.setV_sp (s : State) (v : Vector Byte 16) : (s.setV v).sp = s.sp := rfl
@[simp] theorem State.setV_DT (s : State) (v : Vector Byte 16) : (s.setV v).DT = s.DT := rfl
@[simp] theorem State.setV_ST (s : State) (v : Vector Byte 16) : (s.setV v).ST = s.ST := rfl
@[simp] theorem State.setV_mem (s : State) (v : Vector Byte 16) : (s.setV v).mem = s.mem := rfl
@[simp] theorem State.setV_fb (s : State) (v : Vector Byte 16) : (s.setV v).fb = s.fb := rfl
@[simp] theorem State.setV_dirty (s : State) (v : Vector Byte 16) : (s.setV v).dirty = s.dirty := rfl
@[simp] theorem State.setV_keys (s : State) (v : Vector Byte 16) : (s.setV v).keys = s.keys := rfl
@[simp] theorem State.setV_accCpu (s : State) (v : Vector Byte 16) : (s.setV v).accCpu = s.accCpu := rfl
@[simp] theorem State.setV_accTmr (s : State) (v : Vector Byte 16) : (s.setV v).accTmr = s.accTmr := rfl
@[simp] theorem State.setV_status (s : State) (v : Vector Byte 16) : (s.setV v).status = s.status := rfl
@[simp] theorem State.setV_log (s : State) (v : Vector Byte 16) : (s.setV v).log = s.log := rfl
@[simp] theorem State.setV_call (s : State) (v : Vector Byte 16) : (s.setV v).call = s.call := rfl
@[simp] theorem State.setV_params (s : State) (v : Vector Byte 16) : (s.setV v).params = s.params := rfl
@[simp] theorem State.setV_inputs (s : State) (v : Vector Byte 16) : (s.setV v).inputs = s.inputs := rfl
@[simp] theorem State.setV_draws (s : State) (v : Vector Byte 16) : (s.setV v).draws = s.draws := rfl
@[simp] theorem State.setV_readByte (s : State) (v : Vector Byte 16) (n : Nat) : (s.setV v).readByte n = s.readByte n := rfl

/-! ### setI -/

@[simp] theorem State.setI_V (s : State) (v : Word) : (s.setI v).V = s.V := rfl
@[simp] theorem State.setI_I (s : State) (v : Word) : (s.setI v).I = v := rfl
@[simp] theorem State.setI_pc (s : State) (v : Word) : (s.setI v).pc = s.pc := rfl
@[simp] theorem State.setI_stack (s : State) (v : Word) : (s.setI v).stack = s.stack := rfl
@[simp] theorem State.setI_sp (s : State) (v : Word) : (s.setI v).sp = s.sp := rfl
@[simp] theorem State.setI_DT (s : State) (v : Word) : (s.setI v).DT = s.DT := rfl
@[simp] theorem State.setI_ST (s : State) (v : Word) : (s.setI v).ST = s.ST := rfl
@[simp] theorem State.setI_mem (s : State) (v : Word) : (s.setI v).mem = s.mem := rfl
@[simp] theorem State.setI_fb (s : State) (v : Word) : (s.setI v).fb = s.fb := rfl
@[simp] theorem State.setI_dirty (s : State) (v : Word) : (s.setI v).dirty = s.dirty := rfl
@[simp] theorem State.setI_keys (s : State) (v : Word) : (s.setI v).keys = s.keys := rfl
@[simp] theorem State.setI_accCpu (s : State) (v : Word) : (s.setI v).accCpu = s.accCpu := rfl
@[simp] theorem State.setI_accTmr (s : State) (v : Word) : (s.setI v).accTmr = s.accTmr := rfl
@[simp] theorem State.setI_status (s : State) (v : Word) : (s.setI v).status = s.status := rfl
@[simp] theorem State.setI_log (s : State) (v : Word) : (s.setI v).log = s.log := rfl
@[simp] theorem State.setI_call (s : State) (v : Word) : (s.setI v).call = s.call := rfl
@[simp] theorem State.setI_params (s : State) (v : Word) : (s.setI v).params = s.params := rfl
@[simp] theorem State.setI_inputs (s : State) (v : Word) : (s.setI v).inputs = s.inputs := rfl
@[simp] theorem State.setI_draws (s : State) (v : Word) : (s.setI v).draws = s.draws := rfl
@[simp] theorem State.setI_readV (s : State) (v : Word) (r : Reg) : (s.setI v).readV r = s.readV r := rfl
@[simp] theorem State.setI_readByte (s : State) (v : Word) (n : Nat) : (s.setI v).readByte n = s.readByte n := rfl

/-! ### setPc -/

@[simp] theorem State.setPc_V (s : State) (v : Word) : (s.setPc v).V = s.V := rfl
@[simp] theorem State.setPc_I (s : State) (v : Word) : (s.setPc v).I = s.I := rfl
@[simp] theorem State.setPc_pc (s : State) (v : Word) : (s.setPc v).pc = v := rfl
@[simp] theorem State.setPc_stack (s : State) (v : Word) : (s.setPc v).stack = s.stack := rfl
@[simp] theorem State.setPc_sp (s : State) (v : Word) : (s.setPc v).sp = s.sp := rfl
@[simp] theorem State.setPc_DT (s : State) (v : Word) : (s.setPc v).DT = s.DT := rfl
@[simp] theorem State.setPc_ST (s : State) (v : Word) : (s.setPc v).ST = s.ST := rfl
@[simp] theorem State.setPc_mem (s : State) (v : Word) : (s.setPc v).mem = s.mem := rfl
@[simp] theorem State.setPc_fb (s : State) (v : Word) : (s.setPc v).fb = s.fb := rfl
@[simp] theorem State.setPc_dirty (s : State) (v : Word) : (s.setPc v).dirty = s.dirty := rfl
@[simp] theorem State.setPc_keys (s : State) (v : Word) : (s.setPc v).keys = s.keys := rfl
@[simp] theorem State.setPc_accCpu (s : State) (v : Word) : (s.setPc v).accCpu = s.accCpu := rfl
@[simp] theorem State.setPc_accTmr (s : State) (v : Word) : (s.setPc v).accTmr = s.accTmr := rfl
@[simp] theorem State.setPc_status (s : State) (v : Word) : (s.setPc v).status = s.status := rfl
@[simp] theorem State.setPc_log (s : State) (v : Word) : (s.setPc v).log = s.log := rfl
@[simp] theorem State.setPc_call (s : State) (v : Word) : (s.setPc v).call = s.call := rfl
@[simp] theorem State.setPc_params (s : State) (v : Word) : (s.setPc v).params = s.params := rfl
@[simp] theorem State.setPc_inputs (s : State) (v : Word) : (s.setPc v).inputs = s.inputs := rfl
@[simp] theorem State.setPc_draws (s : State) (v : Word) : (s.setPc v).draws = s.draws := rfl
@[simp] theorem State.setPc_readV (s : State) (v : Word) (r : Reg) : (s.setPc v).readV r = s.readV r := rfl
@[simp] theorem State.setPc_readByte (s : State) (v : Word) (n : Nat) : (s.setPc v).readByte n = s.readByte n := rfl

/-! ### setStack -/

@[simp] theorem State.setStack_V (s : State) (w : Vector Word 16) (p : Fin 17) : (s.setStack w p).V = s.V := rfl
@[simp] theorem State.setStack_I (s : State) (w : Vector Word 16) (p : Fin 17) : (s.setStack w p).I = s.I := rfl
@[simp] theorem State.setStack_pc (s : State) (w : Vector Word 16) (p : Fin 17) : (s.setStack w p).pc = s.pc := rfl
@[simp] theorem State.setStack_stack (s : State) (w : Vector Word 16) (p : Fin 17) : (s.setStack w p).stack = w := rfl
@[simp] theorem State.setStack_sp (s : State) (w : Vector Word 16) (p : Fin 17) : (s.setStack w p).sp = p := rfl
@[simp] theorem State.setStack_DT (s : State) (w : Vector Word 16) (p : Fin 17) : (s.setStack w p).DT = s.DT := rfl
@[simp] theorem State.setStack_ST (s : State) (w : Vector Word 16) (p : Fin 17) : (s.setStack w p).ST = s.ST := rfl
@[simp] theorem State.setStack_mem (s : State) (w : Vector Word 16) (p : Fin 17) : (s.setStack w p).mem = s.mem := rfl
@[simp] theorem State.setStack_fb (s : State) (w : Vector Word 16) (p : Fin 17) : (s.setStack w p).fb = s.fb := rfl
@[simp] theorem State.setStack_dirty (s : State) (w : Vector Word 16) (p : Fin 17) : (s.setStack w p).dirty = s.dirty := rfl
@[simp] theorem State.setStack_keys (s : State) (w : Vector Word 16) (p : Fin 17) : (s.setStack w p).keys = s.keys := rfl
@[simp] theorem State.setStack_accCpu (s : State) (w : Vector Word 16) (p : Fin 17) : (s.setStack w p).accCpu = s.accCpu := rfl
@[simp] theorem State.setStack_accTmr (s : State) (w : Vector Word 16) (p : Fin 17) : (s.setStack w p).accTmr = s.accTmr := rfl
@[simp] theorem State.setStack_status (s : State) (w : Vector Word 16) (p : Fin 17) : (s.setStack w p).status = s.status := rfl
@[simp] theorem State.setStack_log (s : State) (w : Vector Word 16) (p : Fin 17) : (s.setStack w p).log = s.log := rfl
@[simp] theorem State.setStack_call (s : State) (w : Vector Word 16) (p : Fin 17) : (s.setStack w p).call = s.call := rfl
@[simp] theorem State.setStack_params (s : State) (w : Vector Word 16) (p : Fin 17) : (s.setStack w p).params = s.params := rfl
@[simp] theorem State.setStack_inputs (s : State) (w : Vector Word 16) (p : Fin 17) : (s.setStack w p).inputs = s.inputs := rfl
@[simp] theorem State.setStack_draws (s : State) (w : Vector Word 16) (p : Fin 17) : (s.setStack w p).draws = s.draws := rfl
@[simp] theorem State.setStack_readV (s : State) (w : Vector Word 16) (p : Fin 17) (r : Reg) : (s.setStack w p).readV r = s.readV r := rfl
@[simp] theorem State.setStack_readByte (s : State) (w : Vector Word 16) (p : Fin 17) (n : Nat) : (s.setStack w p).readByte n = s.readByte n := rfl

/-! ### setDT -/

@[simp] theorem State.setDT_V (s : State) (v : Byte) : (s.setDT v).V = s.V := rfl
@[simp] theorem State.setDT_I (s : State) (v : Byte) : (s.setDT v).I = s.I := rfl
@[simp] theorem State.setDT_pc (s : State) (v : Byte) : (s.setDT v).pc = s.pc := rfl
@[simp] theorem State.setDT_stack (s : State) (v : Byte) : (s.setDT v).stack = s.stack := rfl
@[simp] theorem State.setDT_sp (s : State) (v : Byte) : (s.setDT v).sp = s.sp := rfl
@[simp] theorem State.setDT_DT (s : State) (v : Byte) : (s.setDT v).DT = v := rfl
@[simp] theorem State.setDT_ST (s : State) (v : Byte) : (s.setDT v).ST = s.ST := rfl
@[simp] theorem State.setDT_mem (s : State) (v : Byte) : (s.setDT v).mem = s.mem := rfl
@[simp] theorem State.setDT_fb (s : State) (v : Byte) : (s.setDT v).fb = s.fb := rfl
@[simp] theorem State.setDT_dirty (s : State) (v : Byte) : (s.setDT v).dirty = s.dirty := rfl
@[simp] theorem State.setDT_keys (s : State) (v : Byte) : (s.setDT v).keys = s.keys := rfl
@[simp] theorem State.setDT_accCpu (s : State) (v : Byte) : (s.setDT v).accCpu = s.accCpu := rfl
@[simp] theorem State.setDT_accTmr (s : State) (v : Byte) : (s.setDT v).accTmr = s.accTmr := rfl
@[simp] theorem State.setDT_status (s : State) (v : Byte) : (s.setDT v).status = s.status := rfl
@[simp] theorem State.setDT_log (s : State) (v : Byte) : (s.setDT v).log = s.log := rfl
@[simp] theorem State.setDT_call (s : State) (v : Byte) : (s.setDT v).call = s.call := rfl
@[simp] theorem State.setDT_params (s : State) (v : Byte) : (s.setDT v).params = s.params := rfl
@[simp] theorem State.setDT_inputs (s : State) (v : Byte) : (s.setDT v).inputs = s.inputs := rfl
@[simp] theorem State.setDT_draws (s : State) (v : Byte) : (s.setDT v).draws = s.draws := rfl
@[simp] theorem State.setDT_readV (s : State) (v : Byte) (r : Reg) : (s.setDT v).readV r = s.readV r := rfl
@[simp] theorem State.setDT_readByte (s : State) (v : Byte) (n : Nat) : (s.setDT v).readByte n = s.readByte n := rfl

/-! ### setST -/

@[simp] theorem State.setST_V (s : State) (v : Byte) : (s.setST v).V = s.V := rfl
@[simp] theorem State.setST_I (s : State) (v : Byte) : (s.setST v).I = s.I := rfl
@[simp] theorem State.setST_pc (s : State) (v : Byte) : (s.setST v).pc = s.pc := rfl
@[simp] theorem State.setST_stack (s : State) (v : Byte) : (s.setST v).stack = s.stack := rfl
@[simp] theorem State.setST_sp (s : State) (v : Byte) : (s.setST v).sp = s.sp := rfl
@[simp] theorem State.setST_DT (s : State) (v : Byte) : (s.setST v).DT = s.DT := rfl
@[simp] theorem State.setST_ST (s : State) (v : Byte) : (s.setST v).ST = v := rfl
@[simp] theorem State.setST_mem (s : State) (v : Byte) : (s.setST v).mem = s.mem := rfl
@[simp] theorem State.setST_fb (s : State) (v : Byte) : (s.setST v).fb = s.fb := rfl
@[simp] theorem State.setST_dirty (s : State) (v : Byte) : (s.setST v).dirty = s.dirty := rfl
@[simp] theorem State.setST_keys (s : State) (v : Byte) : (s.setST v).keys = s.keys := rfl
@[simp] theorem State.setST_accCpu (s : State) (v : Byte) : (s.setST v).accCpu = s.accCpu := rfl
@[simp] theorem State.setST_accTmr (s : State) (v : Byte) : (s.setST v).accTmr = s.accTmr := rfl
@[simp] theorem State.setST_status (s : State) (v : Byte) : (s.setST v).status = s.status := rfl
@[simp] theorem State.setST_log (s : State) (v : Byte) : (s.setST v).log = s.log := rfl
@[simp] theorem State.setST_call (s : State) (v : Byte) : (s.setST v).call = s.call := rfl
@[simp] theorem State.setST_params (s : State) (v : Byte) : (s.setST v).params = s.params := rfl
@[simp] theorem State.setST_inputs (s : State) (v : Byte) : (s.setST v).inputs = s.inputs := rfl
@[simp] theorem State.setST_draws (s : State) (v : Byte) : (s.setST v).draws = s.draws := rfl
@[simp] theorem State.setST_readV (s : State) (v : Byte) (r : Reg) : (s.setST v).readV r = s.readV r := rfl
@[simp] theorem State.setST_readByte (s : State) (v : Byte) (n : Nat) : (s.setST v).readByte n = s.readByte n := rfl

/-! ### setMem -/

@[simp] theorem State.setMem_V (s : State) (m : Memory) : (s.setMem m).V = s.V := rfl
@[simp] theorem State.setMem_I (s : State) (m : Memory) : (s.setMem m).I = s.I := rfl
@[simp] theorem State.setMem_pc (s : State) (m : Memory) : (s.setMem m).pc = s.pc := rfl
@[simp] theorem State.setMem_stack (s : State) (m : Memory) : (s.setMem m).stack = s.stack := rfl
@[simp] theorem State.setMem_sp (s : State) (m : Memory) : (s.setMem m).sp = s.sp := rfl
@[simp] theorem State.setMem_DT (s : State) (m : Memory) : (s.setMem m).DT = s.DT := rfl
@[simp] theorem State.setMem_ST (s : State) (m : Memory) : (s.setMem m).ST = s.ST := rfl
@[simp] theorem State.setMem_mem (s : State) (m : Memory) : (s.setMem m).mem = m := rfl
@[simp] theorem State.setMem_fb (s : State) (m : Memory) : (s.setMem m).fb = s.fb := rfl
@[simp] theorem State.setMem_dirty (s : State) (m : Memory) : (s.setMem m).dirty = s.dirty := rfl
@[simp] theorem State.setMem_keys (s : State) (m : Memory) : (s.setMem m).keys = s.keys := rfl
@[simp] theorem State.setMem_accCpu (s : State) (m : Memory) : (s.setMem m).accCpu = s.accCpu := rfl
@[simp] theorem State.setMem_accTmr (s : State) (m : Memory) : (s.setMem m).accTmr = s.accTmr := rfl
@[simp] theorem State.setMem_status (s : State) (m : Memory) : (s.setMem m).status = s.status := rfl
@[simp] theorem State.setMem_log (s : State) (m : Memory) : (s.setMem m).log = s.log := rfl
@[simp] theorem State.setMem_call (s : State) (m : Memory) : (s.setMem m).call = s.call := rfl
@[simp] theorem State.setMem_params (s : State) (m : Memory) : (s.setMem m).params = s.params := rfl
@[simp] theorem State.setMem_inputs (s : State) (m : Memory) : (s.setMem m).inputs = s.inputs := rfl
@[simp] theorem State.setMem_draws (s : State) (m : Memory) : (s.setMem m).draws = s.draws := rfl
@[simp] theorem State.setMem_readV (s : State) (m : Memory) (r : Reg) : (s.setMem m).readV r = s.readV r := rfl

/-! ### setFb -/

@[simp] theorem State.setFb_V (s : State) (fb : FrameBuffer) : (s.setFb fb).V = s.V := rfl
@[simp] theorem State.setFb_I (s : State) (fb : FrameBuffer) : (s.setFb fb).I = s.I := rfl
@[simp] theorem State.setFb_pc (s : State) (fb : FrameBuffer) : (s.setFb fb).pc = s.pc := rfl
@[simp] theorem State.setFb_stack (s : State) (fb : FrameBuffer) : (s.setFb fb).stack = s.stack := rfl
@[simp] theorem State.setFb_sp (s : State) (fb : FrameBuffer) : (s.setFb fb).sp = s.sp := rfl
@[simp] theorem State.setFb_DT (s : State) (fb : FrameBuffer) : (s.setFb fb).DT = s.DT := rfl
@[simp] theorem State.setFb_ST (s : State) (fb : FrameBuffer) : (s.setFb fb).ST = s.ST := rfl
@[simp] theorem State.setFb_mem (s : State) (fb : FrameBuffer) : (s.setFb fb).mem = s.mem := rfl
@[simp] theorem State.setFb_fb (s : State) (fb : FrameBuffer) : (s.setFb fb).fb = fb := rfl
@[simp] theorem State.setFb_dirty (s : State) (fb : FrameBuffer) : (s.setFb fb).dirty = s.dirty := rfl
@[simp] theorem State.setFb_keys (s : State) (fb : FrameBuffer) : (s.setFb fb).keys = s.keys := rfl
@[simp] theorem State.setFb_accCpu (s : State) (fb : FrameBuffer) : (s.setFb fb).accCpu = s.accCpu := rfl
@[simp] theorem State.setFb_accTmr (s : State) (fb : FrameBuffer) : (s.setFb fb).accTmr = s.accTmr := rfl
@[simp] theorem State.setFb_status (s : State) (fb : FrameBuffer) : (s.setFb fb).status = s.status := rfl
@[simp] theorem State.setFb_log (s : State) (fb : FrameBuffer) : (s.setFb fb).log = s.log := rfl
@[simp] theorem State.setFb_call (s : State) (fb : FrameBuffer) : (s.setFb fb).call = s.call := rfl
@[simp] theorem State.setFb_params (s : State) (fb : FrameBuffer) : (s.setFb fb).params = s.params := rfl
@[simp] theorem State.setFb_inputs (s : State) (fb : FrameBuffer) : (s.setFb fb).inputs = s.inputs := rfl
@[simp] theorem State.setFb_draws (s : State) (fb : FrameBuffer) : (s.setFb fb).draws = s.draws := rfl
@[simp] theorem State.setFb_readV (s : State) (fb : FrameBuffer) (r : Reg) : (s.setFb fb).readV r = s.readV r := rfl
@[simp] theorem State.setFb_readByte (s : State) (fb : FrameBuffer) (n : Nat) : (s.setFb fb).readByte n = s.readByte n := rfl

/-! ### setDirty -/

@[simp] theorem State.setDirty_V (s : State) (v : Bit) : (s.setDirty v).V = s.V := rfl
@[simp] theorem State.setDirty_I (s : State) (v : Bit) : (s.setDirty v).I = s.I := rfl
@[simp] theorem State.setDirty_pc (s : State) (v : Bit) : (s.setDirty v).pc = s.pc := rfl
@[simp] theorem State.setDirty_stack (s : State) (v : Bit) : (s.setDirty v).stack = s.stack := rfl
@[simp] theorem State.setDirty_sp (s : State) (v : Bit) : (s.setDirty v).sp = s.sp := rfl
@[simp] theorem State.setDirty_DT (s : State) (v : Bit) : (s.setDirty v).DT = s.DT := rfl
@[simp] theorem State.setDirty_ST (s : State) (v : Bit) : (s.setDirty v).ST = s.ST := rfl
@[simp] theorem State.setDirty_mem (s : State) (v : Bit) : (s.setDirty v).mem = s.mem := rfl
@[simp] theorem State.setDirty_fb (s : State) (v : Bit) : (s.setDirty v).fb = s.fb := rfl
@[simp] theorem State.setDirty_dirty (s : State) (v : Bit) : (s.setDirty v).dirty = v := rfl
@[simp] theorem State.setDirty_keys (s : State) (v : Bit) : (s.setDirty v).keys = s.keys := rfl
@[simp] theorem State.setDirty_accCpu (s : State) (v : Bit) : (s.setDirty v).accCpu = s.accCpu := rfl
@[simp] theorem State.setDirty_accTmr (s : State) (v : Bit) : (s.setDirty v).accTmr = s.accTmr := rfl
@[simp] theorem State.setDirty_status (s : State) (v : Bit) : (s.setDirty v).status = s.status := rfl
@[simp] theorem State.setDirty_log (s : State) (v : Bit) : (s.setDirty v).log = s.log := rfl
@[simp] theorem State.setDirty_call (s : State) (v : Bit) : (s.setDirty v).call = s.call := rfl
@[simp] theorem State.setDirty_params (s : State) (v : Bit) : (s.setDirty v).params = s.params := rfl
@[simp] theorem State.setDirty_inputs (s : State) (v : Bit) : (s.setDirty v).inputs = s.inputs := rfl
@[simp] theorem State.setDirty_draws (s : State) (v : Bit) : (s.setDirty v).draws = s.draws := rfl
@[simp] theorem State.setDirty_readV (s : State) (v : Bit) (r : Reg) : (s.setDirty v).readV r = s.readV r := rfl
@[simp] theorem State.setDirty_readByte (s : State) (v : Bit) (n : Nat) : (s.setDirty v).readByte n = s.readByte n := rfl

/-! ### setKeys -/

@[simp] theorem State.setKeys_V (s : State) (v : Vector Byte 16) : (s.setKeys v).V = s.V := rfl
@[simp] theorem State.setKeys_I (s : State) (v : Vector Byte 16) : (s.setKeys v).I = s.I := rfl
@[simp] theorem State.setKeys_pc (s : State) (v : Vector Byte 16) : (s.setKeys v).pc = s.pc := rfl
@[simp] theorem State.setKeys_stack (s : State) (v : Vector Byte 16) : (s.setKeys v).stack = s.stack := rfl
@[simp] theorem State.setKeys_sp (s : State) (v : Vector Byte 16) : (s.setKeys v).sp = s.sp := rfl
@[simp] theorem State.setKeys_DT (s : State) (v : Vector Byte 16) : (s.setKeys v).DT = s.DT := rfl
@[simp] theorem State.setKeys_ST (s : State) (v : Vector Byte 16) : (s.setKeys v).ST = s.ST := rfl
@[simp] theorem State.setKeys_mem (s : State) (v : Vector Byte 16) : (s.setKeys v).mem = s.mem := rfl
@[simp] theorem State.setKeys_fb (s : State) (v : Vector Byte 16) : (s.setKeys v).fb = s.fb := rfl
@[simp] theorem State.setKeys_dirty (s : State) (v : Vector Byte 16) : (s.setKeys v).dirty = s.dirty := rfl
@[simp] theorem State.setKeys_keys (s : State) (v : Vector Byte 16) : (s.setKeys v).keys = v := rfl
@[simp] theorem State.setKeys_accCpu (s : State) (v : Vector Byte 16) : (s.setKeys v).accCpu = s.accCpu := rfl
@[simp] theorem State.setKeys_accTmr (s : State) (v : Vector Byte 16) : (s.setKeys v).accTmr = s.accTmr := rfl
@[simp] theorem State.setKeys_status (s : State) (v : Vector Byte 16) : (s.setKeys v).status = s.status := rfl
@[simp] theorem State.setKeys_log (s : State) (v : Vector Byte 16) : (s.setKeys v).log = s.log := rfl
@[simp] theorem State.setKeys_call (s : State) (v : Vector Byte 16) : (s.setKeys v).call = s.call := rfl
@[simp] theorem State.setKeys_params (s : State) (v : Vector Byte 16) : (s.setKeys v).params = s.params := rfl
@[simp] theorem State.setKeys_inputs (s : State) (v : Vector Byte 16) : (s.setKeys v).inputs = s.inputs := rfl
@[simp] theorem State.setKeys_draws (s : State) (v : Vector Byte 16) : (s.setKeys v).draws = s.draws := rfl
@[simp] theorem State.setKeys_readV (s : State) (v : Vector Byte 16) (r : Reg) : (s.setKeys v).readV r = s.readV r := rfl
@[simp] theorem State.setKeys_readByte (s : State) (v : Vector Byte 16) (n : Nat) : (s.setKeys v).readByte n = s.readByte n := rfl

/-! ### setAcc -/

@[simp] theorem State.setAcc_V (s : State) (c m : Nat) : (s.setAcc c m).V = s.V := rfl
@[simp] theorem State.setAcc_I (s : State) (c m : Nat) : (s.setAcc c m).I = s.I := rfl
@[simp] theorem State.setAcc_pc (s : State) (c m : Nat) : (s.setAcc c m).pc = s.pc := rfl
@[simp] theorem State.setAcc_stack (s : State) (c m : Nat) : (s.setAcc c m).stack = s.stack := rfl
@[simp] theorem State.setAcc_sp (s : State) (c m : Nat) : (s.setAcc c m).sp = s.sp := rfl
@[simp] theorem State.setAcc_DT (s : State) (c m : Nat) : (s.setAcc c m).DT = s.DT := rfl
@[simp] theorem State.setAcc_ST (s : State) (c m : Nat) : (s.setAcc c m).ST = s.ST := rfl
@[simp] theorem State.setAcc_mem (s : State) (c m : Nat) : (s.setAcc c m).mem = s.mem := rfl
@[simp] theorem State.setAcc_fb (s : State) (c m : Nat) : (s.setAcc c m).fb = s.fb := rfl
@[simp] theorem State.setAcc_dirty (s : State) (c m : Nat) : (s.setAcc c m).dirty = s.dirty := rfl
@[simp] theorem State.setAcc_keys (s : State) (c m : Nat) : (s.setAcc c m).keys = s.keys := rfl
@[simp] theorem State.setAcc_accCpu (s : State) (c m : Nat) : (s.setAcc c m).accCpu = c := rfl
@[simp] theorem State.setAcc_accTmr (s : State) (c m : Nat) : (s.setAcc c m).accTmr = m := rfl
@[simp] theorem State.setAcc_status (s : State) (c m : Nat) : (s.setAcc c m).status = s.status := rfl
@[simp] theorem State.setAcc_log (s : State) (c m : Nat) : (s.setAcc c m).log = s.log := rfl
@[simp] theorem State.setAcc_call (s : State) (c m : Nat) : (s.setAcc c m).call = s.call := rfl
@[simp] theorem State.setAcc_params (s : State) (c m : Nat) : (s.setAcc c m).params = s.params := rfl
@[simp] theorem State.setAcc_inputs (s : State) (c m : Nat) : (s.setAcc c m).inputs = s.inputs := rfl
@[simp] theorem State.setAcc_draws (s : State) (c m : Nat) : (s.setAcc c m).draws = s.draws := rfl
@[simp] theorem State.setAcc_readV (s : State) (c m : Nat) (r : Reg) : (s.setAcc c m).readV r = s.readV r := rfl
@[simp] theorem State.setAcc_readByte (s : State) (c m : Nat) (n : Nat) : (s.setAcc c m).readByte n = s.readByte n := rfl

/-! ### setStatus -/

@[simp] theorem State.setStatus_V (s : State) (v : Status) : (s.setStatus v).V = s.V := rfl
@[simp] theorem State.setStatus_I (s : State) (v : Status) : (s.setStatus v).I = s.I := rfl
@[simp] theorem State.setStatus_pc (s : State) (v : Status) : (s.setStatus v).pc = s.pc := rfl
@[simp] theorem State.setStatus_stack (s : State) (v : Status) : (s.setStatus v).stack = s.stack := rfl
@[simp] theorem State.setStatus_sp (s : State) (v : Status) : (s.setStatus v).sp = s.sp := rfl
@[simp] theorem State.setStatus_DT (s : State) (v : Status) : (s.setStatus v).DT = s.DT := rfl
@[simp] theorem State.setStatus_ST (s : State) (v : Status) : (s.setStatus v).ST = s.ST := rfl
@[simp] theorem State.setStatus_mem (s : State) (v : Status) : (s.setStatus v).mem = s.mem := rfl
@[simp] theorem State.setStatus_fb (s : State) (v : Status) : (s.setStatus v).fb = s.fb := rfl
@[simp] theorem State.setStatus_dirty (s : State) (v : Status) : (s.setStatus v).dirty = s.dirty := rfl
@[simp] theorem State.setStatus_keys (s : State) (v : Status) : (s.setStatus v).keys = s.keys := rfl
@[simp] theorem State.setStatus_accCpu (s : State) (v : Status) : (s.setStatus v).accCpu = s.accCpu := rfl
@[simp] theorem State.setStatus_accTmr (s : State) (v : Status) : (s.setStatus v).accTmr = s.accTmr := rfl
@[simp] theorem State.setStatus_status (s : State) (v : Status) : (s.setStatus v).status = v := rfl
@[simp] theorem State.setStatus_log (s : State) (v : Status) : (s.setStatus v).log = s.log := rfl
@[simp] theorem State.setStatus_call (s : State) (v : Status) : (s.setStatus v).call = s.call := rfl
@[simp] theorem State.setStatus_params (s : State) (v : Status) : (s.setStatus v).params = s.params := rfl
@[simp] theorem State.setStatus_inputs (s : State) (v : Status) : (s.setStatus v).inputs = s.inputs := rfl
@[simp] theorem State.setStatus_draws (s : State) (v : Status) : (s.setStatus v).draws = s.draws := rfl
@[simp] theorem State.setStatus_readV (s : State) (v : Status) (r : Reg) : (s.setStatus v).readV r = s.readV r := rfl
@[simp] theorem State.setStatus_readByte (s : State) (v : Status) (n : Nat) : (s.setStatus v).readByte n = s.readByte n := rfl

/-! ### logEvent -/

@[simp] theorem State.logEvent_V (s : State) (e : Event) : (s.logEvent e).V = s.V := rfl
@[simp] theorem State.logEvent_I (s : State) (e : Event) : (s.logEvent e).I = s.I := rfl
@[simp] theorem State.logEvent_pc (s : State) (e : Event) : (s.logEvent e).pc = s.pc := rfl
@[simp] theorem State.logEvent_stack (s : State) (e : Event) : (s.logEvent e).stack = s.stack := rfl
@[simp] theorem State.logEvent_sp (s : State) (e : Event) : (s.logEvent e).sp = s.sp := rfl
@[simp] theorem State.logEvent_DT (s : State) (e : Event) : (s.logEvent e).DT = s.DT := rfl
@[simp] theorem State.logEvent_ST (s : State) (e : Event) : (s.logEvent e).ST = s.ST := rfl
@[simp] theorem State.logEvent_mem (s : State) (e : Event) : (s.logEvent e).mem = s.mem := rfl
@[simp] theorem State.logEvent_fb (s : State) (e : Event) : (s.logEvent e).fb = s.fb := rfl
@[simp] theorem State.logEvent_dirty (s : State) (e : Event) : (s.logEvent e).dirty = s.dirty := rfl
@[simp] theorem State.logEvent_keys (s : State) (e : Event) : (s.logEvent e).keys = s.keys := rfl
@[simp] theorem State.logEvent_accCpu (s : State) (e : Event) : (s.logEvent e).accCpu = s.accCpu := rfl
@[simp] theorem State.logEvent_accTmr (s : State) (e : Event) : (s.logEvent e).accTmr = s.accTmr := rfl
@[simp] theorem State.logEvent_status (s : State) (e : Event) : (s.logEvent e).status = s.status := rfl
@[simp] theorem State.logEvent_log (s : State) (e : Event) : (s.logEvent e).log = s.log ++ [e] := rfl
@[simp] theorem State.logEvent_call (s : State) (e : Event) : (s.logEvent e).call = s.call := rfl
@[simp] theorem State.logEvent_params (s : State) (e : Event) : (s.logEvent e).params = s.params := rfl
@[simp] theorem State.logEvent_inputs (s : State) (e : Event) : (s.logEvent e).inputs = s.inputs := rfl
@[simp] theorem State.logEvent_draws (s : State) (e : Event) : (s.logEvent e).draws = s.draws := rfl
@[simp] theorem State.logEvent_readV (s : State) (e : Event) (r : Reg) : (s.logEvent e).readV r = s.readV r := rfl
@[simp] theorem State.logEvent_readByte (s : State) (e : Event) (n : Nat) : (s.logEvent e).readByte n = s.readByte n := rfl

/-! ### setCall -/

@[simp] theorem State.setCall_V (s : State) (c : Option Call) : (s.setCall c).V = s.V := rfl
@[simp] theorem State.setCall_I (s : State) (c : Option Call) : (s.setCall c).I = s.I := rfl
@[simp] theorem State.setCall_pc (s : State) (c : Option Call) : (s.setCall c).pc = s.pc := rfl
@[simp] theorem State.setCall_stack (s : State) (c : Option Call) : (s.setCall c).stack = s.stack := rfl
@[simp] theorem State.setCall_sp (s : State) (c : Option Call) : (s.setCall c).sp = s.sp := rfl
@[simp] theorem State.setCall_DT (s : State) (c : Option Call) : (s.setCall c).DT = s.DT := rfl
@[simp] theorem State.setCall_ST (s : State) (c : Option Call) : (s.setCall c).ST = s.ST := rfl
@[simp] theorem State.setCall_mem (s : State) (c : Option Call) : (s.setCall c).mem = s.mem := rfl
@[simp] theorem State.setCall_fb (s : State) (c : Option Call) : (s.setCall c).fb = s.fb := rfl
@[simp] theorem State.setCall_dirty (s : State) (c : Option Call) : (s.setCall c).dirty = s.dirty := rfl
@[simp] theorem State.setCall_keys (s : State) (c : Option Call) : (s.setCall c).keys = s.keys := rfl
@[simp] theorem State.setCall_accCpu (s : State) (c : Option Call) : (s.setCall c).accCpu = s.accCpu := rfl
@[simp] theorem State.setCall_accTmr (s : State) (c : Option Call) : (s.setCall c).accTmr = s.accTmr := rfl
@[simp] theorem State.setCall_status (s : State) (c : Option Call) : (s.setCall c).status = s.status := rfl
@[simp] theorem State.setCall_log (s : State) (c : Option Call) : (s.setCall c).log = s.log := rfl
@[simp] theorem State.setCall_call (s : State) (c : Option Call) : (s.setCall c).call = c := rfl
@[simp] theorem State.setCall_params (s : State) (c : Option Call) : (s.setCall c).params = s.params := rfl
@[simp] theorem State.setCall_inputs (s : State) (c : Option Call) : (s.setCall c).inputs = s.inputs := rfl
@[simp] theorem State.setCall_draws (s : State) (c : Option Call) : (s.setCall c).draws = s.draws := rfl
@[simp] theorem State.setCall_readV (s : State) (c : Option Call) (r : Reg) : (s.setCall c).readV r = s.readV r := rfl
@[simp] theorem State.setCall_readByte (s : State) (c : Option Call) (n : Nat) : (s.setCall c).readByte n = s.readByte n := rfl

/-! ### setInputs -/

@[simp] theorem State.setInputs_V (s : State) (q : List HostAction) : (s.setInputs q).V = s.V := rfl
@[simp] theorem State.setInputs_I (s : State) (q : List HostAction) : (s.setInputs q).I = s.I := rfl
@[simp] theorem State.setInputs_pc (s : State) (q : List HostAction) : (s.setInputs q).pc = s.pc := rfl
@[simp] theorem State.setInputs_stack (s : State) (q : List HostAction) : (s.setInputs q).stack = s.stack := rfl
@[simp] theorem State.setInputs_sp (s : State) (q : List HostAction) : (s.setInputs q).sp = s.sp := rfl
@[simp] theorem State.setInputs_DT (s : State) (q : List HostAction) : (s.setInputs q).DT = s.DT := rfl
@[simp] theorem State.setInputs_ST (s : State) (q : List HostAction) : (s.setInputs q).ST = s.ST := rfl
@[simp] theorem State.setInputs_mem (s : State) (q : List HostAction) : (s.setInputs q).mem = s.mem := rfl
@[simp] theorem State.setInputs_fb (s : State) (q : List HostAction) : (s.setInputs q).fb = s.fb := rfl
@[simp] theorem State.setInputs_dirty (s : State) (q : List HostAction) : (s.setInputs q).dirty = s.dirty := rfl
@[simp] theorem State.setInputs_keys (s : State) (q : List HostAction) : (s.setInputs q).keys = s.keys := rfl
@[simp] theorem State.setInputs_accCpu (s : State) (q : List HostAction) : (s.setInputs q).accCpu = s.accCpu := rfl
@[simp] theorem State.setInputs_accTmr (s : State) (q : List HostAction) : (s.setInputs q).accTmr = s.accTmr := rfl
@[simp] theorem State.setInputs_status (s : State) (q : List HostAction) : (s.setInputs q).status = s.status := rfl
@[simp] theorem State.setInputs_log (s : State) (q : List HostAction) : (s.setInputs q).log = s.log := rfl
@[simp] theorem State.setInputs_call (s : State) (q : List HostAction) : (s.setInputs q).call = s.call := rfl
@[simp] theorem State.setInputs_params (s : State) (q : List HostAction) : (s.setInputs q).params = s.params := rfl
@[simp] theorem State.setInputs_inputs (s : State) (q : List HostAction) : (s.setInputs q).inputs = q := rfl
@[simp] theorem State.setInputs_draws (s : State) (q : List HostAction) : (s.setInputs q).draws = s.draws := rfl
@[simp] theorem State.setInputs_readV (s : State) (q : List HostAction) (r : Reg) : (s.setInputs q).readV r = s.readV r := rfl
@[simp] theorem State.setInputs_readByte (s : State) (q : List HostAction) (n : Nat) : (s.setInputs q).readByte n = s.readByte n := rfl

/-! ### drawn -/

@[simp] theorem State.drawn_V (s : State) : s.drawn.V = s.V := rfl
@[simp] theorem State.drawn_I (s : State) : s.drawn.I = s.I := rfl
@[simp] theorem State.drawn_pc (s : State) : s.drawn.pc = s.pc := rfl
@[simp] theorem State.drawn_stack (s : State) : s.drawn.stack = s.stack := rfl
@[simp] theorem State.drawn_sp (s : State) : s.drawn.sp = s.sp := rfl
@[simp] theorem State.drawn_DT (s : State) : s.drawn.DT = s.DT := rfl
@[simp] theorem State.drawn_ST (s : State) : s.drawn.ST = s.ST := rfl
@[simp] theorem State.drawn_mem (s : State) : s.drawn.mem = s.mem := rfl
@[simp] theorem State.drawn_fb (s : State) : s.drawn.fb = s.fb := rfl
@[simp] theorem State.drawn_dirty (s : State) : s.drawn.dirty = s.dirty := rfl
@[simp] theorem State.drawn_keys (s : State) : s.drawn.keys = s.keys := rfl
@[simp] theorem State.drawn_accCpu (s : State) : s.drawn.accCpu = s.accCpu := rfl
@[simp] theorem State.drawn_accTmr (s : State) : s.drawn.accTmr = s.accTmr := rfl
@[simp] theorem State.drawn_status (s : State) : s.drawn.status = s.status := rfl
@[simp] theorem State.drawn_log (s : State) : s.drawn.log = s.log := rfl
@[simp] theorem State.drawn_call (s : State) : s.drawn.call = s.call := rfl
@[simp] theorem State.drawn_params (s : State) : s.drawn.params = s.params := rfl
@[simp] theorem State.drawn_inputs (s : State) : s.drawn.inputs = s.inputs := rfl
@[simp] theorem State.drawn_draws (s : State) : s.drawn.draws = s.draws + 1 := rfl
@[simp] theorem State.drawn_readV (s : State) (r : Reg) : s.drawn.readV r = s.readV r := rfl
@[simp] theorem State.drawn_readByte (s : State) (n : Nat) : s.drawn.readByte n = s.readByte n := rfl

/-! ### Registers -/

@[simp] theorem State.readV_writeV_same (s : State) (x : Reg) (v : Byte) : (s.writeV x v).readV x = v := by
  simp [State.readV]

@[simp] theorem State.readV_writeV_of_ne (s : State) {x r : Reg} (v : Byte) (h : r ≠ x) :
    (s.writeV x v).readV r = s.readV r := by
  have : x.val ≠ r.val := fun e => h (Fin.ext e.symm)
  simp [State.readV, this]

theorem State.readV_writeV (s : State) (x r : Reg) (v : Byte) :
    (s.writeV x v).readV r = if r = x then v else s.readV r := by
  by_cases h : r = x
  · subst h; simp
  · simp [h]

@[simp] theorem State.setV_readV (s : State) (v : Vector Byte 16) (r : Reg) : (s.setV v).readV r = v[r.val] := rfl

/-! ### Derived updates -/

@[simp] theorem State.advance_eq (s : State) : s.advance = s.setPc (s.pc + 2) := rfl

@[simp] theorem State.skipNext_eq (s : State) : s.skipNext = s.setPc (s.pc + 4) := rfl

@[simp] theorem State.skipIf_eq (s : State) (p : Bool) :
    s.skipIf p = s.setPc (if p then s.pc + 4 else s.pc + 2) := by
  cases p <;> rfl

@[simp] theorem State.raise_eq (s : State) (f : Fault) : s.raise f = (s.setStatus (.halted f)).setCall none := rfl

@[simp] theorem State.recover_eq (s : State) (e : Event) : s.recover e = (s.logEvent e).setPc (s.pc + 2) := rfl

end Sys2Proof.Machine
end

