-- ==== Sys2Proof/Laws/Memory.lean ====
section
/-! SUPPORT. The laws of memory: a read after a write, that every operation keeps the canonical form, and that canonical
memories that read alike are equal. -/

namespace Sys2Proof.Machine

theorem Memory.read_erase_same (m : Memory) (a : Nat) : (m.erase a).read a = Memory.unlisted a := by
  induction m with
  | nil => rfl
  | cons c m ih =>
    by_cases h : c.1 = a
    · simpa [Memory.erase, h] using ih
    · simpa [Memory.erase, Memory.read, h] using ih

theorem Memory.read_erase_of_ne (m : Memory) {a b : Nat} (h : b ≠ a) : (m.erase a).read b = m.read b := by
  induction m with
  | nil => rfl
  | cons c m ih =>
    by_cases hc : c.1 = a
    · simpa [Memory.erase, Memory.read, hc, h.symm] using ih
    · simp only [Memory.erase, List.filter_cons, bne_iff_ne, ne_eq, hc, not_false_eq_true, if_true, Memory.read] at ih ⊢
      rw [ih]

theorem Memory.read_insert_same {m : Memory} {a : Nat} (v : Byte) (h : ∀ c ∈ m, c.1 ≠ a) :
    (Memory.insert a v m).read a = v := by
  induction m with
  | nil => simp [Memory.insert, Memory.read]
  | cons c m ih =>
    have hc : c.1 ≠ a := h c (by simp)
    by_cases hlt : a < c.1
    · simp [Memory.insert, hlt, Memory.read]
    · simpa [Memory.insert, hlt, Memory.read, hc] using ih fun d hd => h d (by simp [hd])

theorem Memory.read_insert_of_ne (m : Memory) {a b : Nat} (v : Byte) (h : b ≠ a) :
    (Memory.insert a v m).read b = m.read b := by
  induction m with
  | nil => simp [Memory.insert, Memory.read, h.symm]
  | cons c m ih =>
    by_cases hlt : a < c.1
    · simp [Memory.insert, hlt, Memory.read, h.symm]
    · simp [Memory.insert, hlt, Memory.read, ih]

theorem Memory.not_mem_erase (m : Memory) (a : Nat) : ∀ c ∈ m.erase a, c.1 ≠ a := by
  intro c hc
  simpa using (List.mem_filter.mp hc).2

/-- A read after a write to the same byte gives the value written (R60). -/
theorem Memory.read_write_same (m : Memory) {a : Nat} (v : Byte) (h : a < Config.memSize) :
    (m.write a v).read a = v := by
  unfold Memory.write
  rw [if_pos h]
  split
  · next hv => rw [Memory.read_erase_same, hv]
  · exact Memory.read_insert_same v (Memory.not_mem_erase m a)

/-- A write leaves every other byte alone (R56). -/
theorem Memory.read_write_of_ne (m : Memory) {a b : Nat} (v : Byte) (h : b ≠ a) : (m.write a v).read b = m.read b := by
  unfold Memory.write
  split
  · split
    · exact Memory.read_erase_of_ne m h
    · rw [Memory.read_insert_of_ne _ _ h, Memory.read_erase_of_ne m h]
  · rfl

theorem Memory.read_write (m : Memory) {a : Nat} (b : Nat) (v : Byte) (h : a < Config.memSize) :
    (m.write a v).read b = if b = a then v else m.read b := by
  split
  · next e => rw [e, Memory.read_write_same m v h]
  · next e => exact Memory.read_write_of_ne m v e

/-! ### The canonical form -/

/-- The canonical form of a memory with a first cell, one cell at a time. -/
theorem Memory.wf_cons {c : Host.Cell} {m : Memory} :
    Memory.wf (c :: m) = true ↔
      (∀ d ∈ m, c.1 < d.1) ∧ c.1 < Config.memSize ∧ c.2 ≠ Memory.unlisted c.1 ∧ Memory.wf m = true := by
  induction m generalizing c with
  | nil => simp [Memory.wf, Memory.rising]
  | cons d m ih =>
    have hd := @ih d
    simp only [Memory.wf, Memory.rising, List.all_cons, Bool.and_eq_true, decide_eq_true_eq, bne_iff_ne, ne_eq,
      List.mem_cons, forall_eq_or_imp] at hd ⊢
    constructor
    · rintro ⟨⟨hcd, hr⟩, ⟨hc, hc'⟩, ⟨hdm, hd'⟩, hall⟩
      have := hd.mp ⟨hr, ⟨hdm, hd'⟩, hall⟩
      exact ⟨⟨hcd, fun e he => lt_trans hcd (this.1 e he)⟩, hc, hc', hr, ⟨hdm, hd'⟩, hall⟩
    · rintro ⟨⟨hcd, -⟩, hc, hc', hr, hd', hall⟩
      exact ⟨⟨hcd, hr⟩, ⟨hc, hc'⟩, hd', hall⟩

theorem Memory.wf_erase {m : Memory} (a : Nat) (h : m.wf = true) : (m.erase a).wf = true := by
  induction m with
  | nil => exact h
  | cons c m ih =>
    obtain ⟨hlt, hc, hv, hm⟩ := Memory.wf_cons.mp h
    by_cases hca : c.1 = a
    · simpa [Memory.erase, hca] using ih hm
    · have : Memory.erase (c :: m) a = c :: Memory.erase m a := by simp [Memory.erase, hca]
      rw [this]
      exact Memory.wf_cons.mpr ⟨fun d hd => hlt d (List.mem_filter.mp hd).1, hc, hv, ih hm⟩

theorem Memory.mem_insert {m : Memory} {a : Nat} {v : Byte} {d : Host.Cell} (h : d ∈ Memory.insert a v m) :
    d = (a, v) ∨ d ∈ m := by
  induction m with
  | nil => simpa [Memory.insert] using h
  | cons c m ih =>
    by_cases hlt : a < c.1
    · simpa [Memory.insert, hlt] using h
    · simp only [Memory.insert, hlt, if_false, List.mem_cons] at h ⊢
      rcases h with h | h
      · exact .inr (.inl h)
      · exact (ih h).imp id .inr

theorem Memory.wf_insert {m : Memory} {a : Nat} {v : Byte} (ha : a < Config.memSize) (hv : v ≠ Memory.unlisted a)
    (hne : ∀ c ∈ m, c.1 ≠ a) (h : m.wf = true) : (Memory.insert a v m).wf = true := by
  induction m with
  | nil => simp [Memory.insert, Memory.wf, Memory.rising, ha, hv]
  | cons c m ih =>
    obtain ⟨hlt, hc, hcv, hm⟩ := Memory.wf_cons.mp h
    by_cases hac : a < c.1
    · rw [Memory.insert, if_pos hac]
      refine Memory.wf_cons.mpr ⟨fun d hd => ?_, ha, hv, h⟩
      rcases List.mem_cons.mp hd with rfl | hd
      · exact hac
      · exact lt_trans hac (hlt d hd)
    · rw [Memory.insert, if_neg hac]
      have hca : c.1 < a := lt_of_le_of_ne (not_lt.mp hac) (hne c (by simp))
      refine Memory.wf_cons.mpr ⟨fun d hd => ?_, hc, hcv, ih (fun d hd => hne d (by simp [hd])) hm⟩
      rcases Memory.mem_insert hd with rfl | hd
      · exact hca
      · exact hlt d hd

/-- A write keeps the canonical form. -/
theorem Memory.wf_write {m : Memory} (a : Nat) (v : Byte) (h : m.wf = true) : (m.write a v).wf = true := by
  unfold Memory.write
  split
  · next ha =>
    split
    · exact Memory.wf_erase a h
    · next hv => exact Memory.wf_insert ha hv (Memory.not_mem_erase m a) (Memory.wf_erase a h)
  · exact h

/-- Writing bytes keeps the canonical form. -/
theorem Memory.wf_writeBytes {m : Memory} (a : Nat) (bs : List Byte) (h : m.wf = true) :
    (m.writeBytes a bs).wf = true := by
  induction bs generalizing m a with
  | nil => exact h
  | cons b bs ih => exact ih (a + 1) (Memory.wf_write a b h)

/-- What memory reads after bytes are written at ascending addresses that all exist. -/
theorem Memory.read_writeBytes (m : Memory) (a : Nat) (bs : List Byte) (b : Nat) (h : a + bs.length ≤ Config.memSize) :
    (m.writeBytes a bs).read b = if a ≤ b ∧ b < a + bs.length then bs.getD (b - a) 0 else m.read b := by
  induction bs generalizing m a with
  | nil => rw [if_neg (by simp)]; rfl
  | cons v bs ih =>
    have hlen : a + (bs.length + 1) ≤ Config.memSize := by simpa using h
    rw [Memory.writeBytes, ih _ _ (by omega), Memory.read_write _ _ _ (by omega)]
    rcases Nat.lt_trichotomy b a with hb | rfl | hb
    · rw [if_neg (by omega), if_neg (by omega), if_neg (by simp; omega)]
    · rw [if_neg (by omega), if_pos rfl, if_pos (by simp)]; simp
    · have hsub : b - a = (b - (a + 1)) + 1 := by omega
      by_cases hin : b < a + (bs.length + 1)
      · rw [if_pos (by omega), if_pos (by simp; omega), hsub, List.getD_cons_succ]
      · rw [if_neg (by omega), if_neg (by omega), if_neg (by simp; omega)]

theorem Memory.read_of_lt {m : Memory} {a : Nat} (h : ∀ c ∈ m, a < c.1) : m.read a = Memory.unlisted a := by
  induction m with
  | nil => rfl
  | cons c m ih =>
    have := h c (by simp)
    rw [Memory.read, if_neg (by omega)]
    exact ih fun d hd => h d (by simp [hd])

/-! ### Effective addresses -/

/-- The range check answers a fault only under `Fault`, and then the lowest address above 0xFFF (R57). -/
theorem rangeFault_eq_some {p : Config.AddrPolicy} {base n : Nat} {f : Fault} :
    rangeFault p base n = some f ↔
      p = .fault ∧ n ≠ 0 ∧ Config.memSize < base + n ∧ f = .addressFault (max base Config.memSize) := by
  cases p
  · by_cases h : n = 0 ∨ base + n ≤ Config.memSize
    · simp [rangeFault, h]; omega
    · simp only [rangeFault, h, if_false, Option.some.injEq, true_and]
      constructor
      · rintro rfl; exact ⟨by omega, by omega, rfl⟩
      · rintro ⟨-, -, rfl⟩; rfl
  · simp [rangeFault]

/-- An access that passes the check names bytes that exist. -/
theorem effectiveAddress_lt {p : Config.AddrPolicy} {base n k : Nat} (h : rangeFault p base n = none) (hk : k < n) :
    effectiveAddress p (base + k) < Config.memSize := by
  cases p
  · have : n = 0 ∨ base + n ≤ Config.memSize := by
      by_contra hc
      simp [rangeFault, hc] at h
    simp only [effectiveAddress]; omega
  · exact Nat.mod_lt _ (by decide)

/-- Up to 4096 consecutive effective addresses name different bytes. -/
theorem effectiveAddress_inj {p : Config.AddrPolicy} {base j k : Nat} (hj : j < Config.memSize) (hk : k < Config.memSize)
    (h : effectiveAddress p (base + j) = effectiveAddress p (base + k)) : j = k := by
  cases p
  · simp only [effectiveAddress] at h; omega
  · simp only [effectiveAddress, Config.memSize] at h hj hk; omega

/-! ### The state's memory -/

/-- Writing bytes through the state changes its memory only. -/
theorem State.writeBytes_eq (s : State) (e : Nat) (bs : List Byte) :
    ∃ m, s.writeBytes e bs = s.setMem m ∧ (s.mem.wf = true → m.wf = true) := by
  induction bs generalizing s e with
  | nil => exact ⟨s.mem, rfl, id⟩
  | cons b bs ih =>
    obtain ⟨m, hm, hwf⟩ := ih (s.writeByte e b) (e + 1)
    refine ⟨m, by rw [State.writeBytes, hm]; rfl, fun h => hwf (Memory.wf_write _ _ h)⟩

/-- Each byte written is the one its address then reads, and every other byte is as before. -/
theorem State.read_writeBytes (s : State) (base n : Nat) (bs : List Byte) (hn : bs.length = n) (hlen : n ≤ Config.memSize)
    (h : ∀ k, k < n → effectiveAddress s.params.addrPolicy (base + k) < Config.memSize) :
    (∀ k, k < n → (s.writeBytes base bs).mem.read (effectiveAddress s.params.addrPolicy (base + k)) = bs.getD k 0) ∧
    (∀ a, (∀ k, k < n → a ≠ effectiveAddress s.params.addrPolicy (base + k)) →
      (s.writeBytes base bs).mem.read a = s.mem.read a) := by
  induction bs generalizing s base n with
  | nil => subst hn; exact ⟨fun k hk => absurd hk (Nat.not_lt_zero k), fun a _ => rfl⟩
  | cons b bs ih =>
    subst hn
    simp only [List.length_cons] at h hlen ⊢
    have h0 := h 0 (by omega)
    obtain ⟨ih1, ih2⟩ := ih (s.writeByte base b) (base + 1) bs.length rfl (by omega)
      (fun k hk => by simpa [State.writeByte, Nat.add_assoc, Nat.add_comm 1] using h (k + 1) (by omega))
    simp only [State.writeByte, State.setMem_params, State.setMem_mem] at ih1 ih2
    refine ⟨fun k hk => ?_, fun a ha => ?_⟩
    · rcases k with - | k
      · rw [State.writeBytes]
        refine (ih2 _ fun j hj hj' => ?_).trans (Memory.read_write_same _ _ h0)
        rw [Nat.add_assoc] at hj'
        have := effectiveAddress_inj (p := s.params.addrPolicy) (by omega) (by omega) hj'
        omega
      · have := ih1 k (by omega)
        rw [Nat.add_assoc, Nat.add_comm 1 k] at this
        simpa [State.writeBytes, State.writeByte] using this
    · rw [State.writeBytes]
      refine (ih2 a fun j hj => ?_).trans (Memory.read_write_of_ne _ _ (ha 0 (by omega)))
      rw [Nat.add_assoc, Nat.add_comm 1 j]
      exact ha (j + 1) (by omega)

end Sys2Proof.Machine
end

