-- ==== Sys2Proof/Laws/HostCall.lean ====
section
/-! SUPPORT. The small lemmas of the host's moves: what a load, a timer cycle and a started host call leave, the arithmetic of the
accumulators, and everything one step can be. -/

namespace Sys2Proof.Machine

/-! ### Timers -/

/-- A timer counted down is one less, or 0 (R233). -/
theorem countDown_toNat (t : Byte) : (countDown t).toNat = t.toNat - 1 := by
  unfold countDown
  split
  · next h => simp [h]
  · next h =>
    have h0 : t.toNat ≠ 0 := fun e => h (BitVec.eq_of_toNat_eq (by simpa using e))
    have := t.isLt
    simp [BitVec.toNat_sub]
    omega

@[simp] theorem State.timerCycle_eq (s : State) :
    s.timerCycle = (s.setDT (countDown s.DT)).setST (countDown s.ST) := rfl

/-! ### Accumulators -/

/-- Whole cycles and remainder make the accumulator again (R231). -/
theorem wholeCycles_add_fractionLeft (acc : Nat) : 1000 * wholeCycles acc + fractionLeft acc = acc :=
  Nat.div_add_mod acc 1000

theorem fractionLeft_lt (acc : Nat) : fractionLeft acc < 1000 := Nat.mod_lt _ (by decide)

/-! ### Block order -/

/-- Settling the block order draws a free value under `Either` and changes nothing otherwise (R232). -/
theorem State.orderSettled_cases (s : State) :
    (s.params.timerBlockOrder = .cpuFirst ∧ s.timersFirst = false ∧ s.orderSettled = s) ∨
    (s.params.timerBlockOrder = .timerFirst ∧ s.timersFirst = true ∧ s.orderSettled = s) ∨
    (s.params.timerBlockOrder = .either ∧ s.orderSettled = s.drawn) := by
  rcases h : s.params.timerBlockOrder <;> simp [State.timersFirst, State.orderSettled, h]

/-! ### A host call in progress -/

theorem Call.orDone_eq_none {c : Call} : c.orDone = none ↔ c.cpu = 0 ∧ c.tmr = 0 := by
  simp [Call.orDone]

/-- A call that is not done has a cycle left, and is the call itself. -/
theorem Call.orDone_eq_some {c d : Call} : c.orDone = some d ↔ d = c ∧ 0 < c.cpu + c.tmr := by
  unfold Call.orDone
  split
  · next h => simp; omega
  · next h =>
    rw [Option.some.injEq]
    exact ⟨fun e => ⟨e.symm, by omega⟩, fun e => e.1.symm⟩

/-- When each turn comes (R232). -/
theorem Call.turn_eq_cpu {c : Call} : c.turn = .cpu ↔ 0 < c.cpu ∧ (c.timersFirst = false ∨ c.tmr = 0) := by
  cases h : c.timersFirst <;> simp only [Call.turn, h] <;> repeat' split
  all_goals simp_all <;> omega

theorem Call.turn_eq_timer {c : Call} : c.turn = .timer ↔ 0 < c.tmr ∧ (c.timersFirst = true ∨ c.cpu = 0) := by
  cases h : c.timersFirst <;> simp only [Call.turn, h] <;> repeat' split
  all_goals simp_all <;> omega

/-- What a step of a running engine's call can be: a CPU cycle, a timer cycle, or the end of a call with no cycle left. -/
theorem runTurn_cases (c : Call) (s : State) :
    (c.turn = .cpu ∧ runTurn c s = cycle (s.setCall c.afterCpu)) ∨
    (c.turn = .timer ∧ runTurn c s = .next (s.setCall c.afterTimer).timerCycle) ∨
    (c.turn = .over ∧ runTurn c s = .next (s.setCall none)) := by
  rcases h : c.turn <;> simp [runTurn, h]

@[simp] theorem startCall_status (hz ms : Nat) (s : State) : (startCall hz ms s).status = s.status := by
  rcases s.orderSettled_cases with ⟨_, _, h⟩ | ⟨_, _, h⟩ | ⟨_, h⟩ <;> simp [startCall, h]
@[simp] theorem startCall_params (hz ms : Nat) (s : State) : (startCall hz ms s).params = s.params := by
  rcases s.orderSettled_cases with ⟨_, _, h⟩ | ⟨_, _, h⟩ | ⟨_, h⟩ <;> simp [startCall, h]
@[simp] theorem startCall_mem (hz ms : Nat) (s : State) : (startCall hz ms s).mem = s.mem := by
  rcases s.orderSettled_cases with ⟨_, _, h⟩ | ⟨_, _, h⟩ | ⟨_, h⟩ <;> simp [startCall, h]
@[simp] theorem startCall_inputs (hz ms : Nat) (s : State) : (startCall hz ms s).inputs = s.inputs := by
  rcases s.orderSettled_cases with ⟨_, _, h⟩ | ⟨_, _, h⟩ | ⟨_, h⟩ <;> simp [startCall, h]
@[simp] theorem startCall_accCpu (hz ms : Nat) (s : State) :
    (startCall hz ms s).accCpu = fractionLeft (accumulate s.accCpu ms hz) := rfl
@[simp] theorem startCall_accTmr (hz ms : Nat) (s : State) :
    (startCall hz ms s).accTmr = fractionLeft (accumulate s.accTmr ms Config.timerHz) := rfl

/-! ### The step -/

/-- Everything a step that goes on can be: nothing, one host action, one CPU cycle, one timer cycle, or the end of a call that has
no cycle left (R226, R234, R240). -/
theorem step_cases {s t : State} (h : step s = .next t) :
    (s.call = none ∧ s.inputs = [] ∧ (∀ f, s.status ≠ .halted f) ∧ t = s) ∨
    (∃ a rest, s.call = none ∧ s.inputs = a :: rest ∧ hostAction a (s.setInputs rest) = .next t) ∨
    (∃ c, s.call = some c ∧ s.status = .running ∧
      ((c.turn = .cpu ∧ cycle (s.setCall c.afterCpu) = .next t) ∨
        (c.turn = .timer ∧ t = (s.setCall c.afterTimer).timerCycle) ∨ (c.turn = .over ∧ t = s.setCall none))) := by
  rcases hc : s.call with _ | c
  · simp only [step, hc, hostTurn] at h
    rcases hi : s.inputs with _ | ⟨a, rest⟩
    · simp only [hi, idle] at h
      left
      rcases hs : s.status <;> simp_all
    · simp only [hi] at h
      exact .inr (.inl ⟨a, rest, rfl, rfl, h⟩)
  · simp only [step, hc, callStep] at h
    rcases hs : s.status <;> simp only [hs] at h
    · cases h
    · refine .inr (.inr ⟨c, rfl, rfl, ?_⟩)
      rcases runTurn_cases c s with ⟨ht, e⟩ | ⟨ht, e⟩ | ⟨ht, e⟩ <;> rw [e] at h
      · exact .inl ⟨ht, h⟩
      · cases h; exact .inr (.inl ⟨ht, rfl⟩)
      · cases h; exact .inr (.inr ⟨ht, rfl⟩)
    · cases h

/-! ### Loads -/

@[simp] theorem State.resetForLoad_params (s : State) : s.resetForLoad.params = s.params := rfl
@[simp] theorem State.resetForLoad_inputs (s : State) : s.resetForLoad.inputs = s.inputs := rfl
@[simp] theorem State.resetForLoad_draws (s : State) : s.resetForLoad.draws = s.draws := rfl
@[simp] theorem State.loadedWith_params (s : State) (rom : List Byte) : (s.loadedWith rom).params = s.params := rfl
@[simp] theorem State.loadedWith_status (s : State) (rom : List Byte) : (s.loadedWith rom).status = .running := rfl
@[simp] theorem State.loadedWith_call (s : State) (rom : List Byte) : (s.loadedWith rom).call = none := rfl
@[simp] theorem State.failedLoad_call (s : State) (f : Fault) : (s.failedLoad f).call = none := by
  simp only [State.failedLoad]
@[simp] theorem State.loadedWith_accCpu (s : State) (rom : List Byte) : (s.loadedWith rom).accCpu = 0 := rfl
@[simp] theorem State.loadedWith_accTmr (s : State) (rom : List Byte) : (s.loadedWith rom).accTmr = 0 := rfl
@[simp] theorem State.loadedWith_mem (s : State) (rom : List Byte) :
    (s.loadedWith rom).mem =
      (Memory.writeBytes [] Config.fontBase s.params.font.toList).writeBytes Config.romBase rom := rfl
@[simp] theorem State.failedLoad_params (s : State) (f : Fault) : (s.failedLoad f).params = s.params := by
  simp only [State.failedLoad]
@[simp] theorem State.failedLoad_status (s : State) (f : Fault) : (s.failedLoad f).status = .halted f := by
  simp only [State.failedLoad]

theorem Memory.wf_nil : Memory.wf [] = true := rfl

/-- A load leaves memory canonical. -/
theorem State.loadedWith_wf (s : State) (rom : List Byte) : (s.loadedWith rom).mem.wf = true := by
  rw [State.loadedWith_mem]
  exact Memory.wf_writeBytes _ _ (Memory.wf_writeBytes _ _ Memory.wf_nil)

/-- A failed load leaves memory canonical, whatever it holds. -/
theorem State.failedLoad_wf (s : State) (f : Fault) : (s.failedLoad f).mem.wf = true := by
  simp only [State.failedLoad]
  exact Memory.wf_writeBytes _ _ Memory.wf_nil

theorem State.failedLoad_accCpu_lt (s : State) (f : Fault) : (s.failedLoad f).accCpu < 1000 := by
  simp only [State.failedLoad]
  exact Nat.mod_lt _ (by decide)

theorem State.failedLoad_accTmr_lt (s : State) (f : Fault) : (s.failedLoad f).accTmr < 1000 := by
  simp only [State.failedLoad]
  exact Nat.mod_lt _ (by decide)

end Sys2Proof.Machine
end

