-- ==== Sys2Proof/Laws/Ops.lean ====
section
/-! SUPPORT. One lemma per shared operation that says everything it can do: the range check, push and pop, the keys, the key
index, the bytes read, the flag writers' register writes, the frame buffer. -/

namespace Sys2Proof.Machine

/-! ### The range check -/

/-- The check of R57 raises with the lowest address above 0xFFF, or completes. -/
theorem State.checkRange_cases (s : State) (base n : Nat) (done : State) :
    (s.params.addrPolicy = .fault ∧ n ≠ 0 ∧ Config.memSize < base + n ∧
      s.checkRange base n done = .next (s.raise (.addressFault (max base Config.memSize)))) ∨
    (rangeFault s.params.addrPolicy base n = none ∧ s.checkRange base n done = .next done) := by
  unfold State.checkRange
  split
  · next f hf =>
    obtain ⟨hp, hn, hlt, rfl⟩ := rangeFault_eq_some.mp hf
    exact .inl ⟨hp, hn, hlt, rfl⟩
  · next hf => exact .inr ⟨hf, rfl⟩

/-- Where every address exists the check completes. -/
theorem State.checkRange_of_none {s : State} {base n : Nat} (done : State)
    (h : rangeFault s.params.addrPolicy base n = none) : s.checkRange base n done = .next done := by
  simp [State.checkRange, h]

/-! ### The stack -/

/-- Push below depth 16 stores at the pointer and raises it by one (R28). -/
theorem State.push_of_lt {s : State} (v : Word) (h : s.sp.val < Config.stackDepth) :
    s.push v = some (s.setStack (s.stack.set s.sp.val v) ⟨s.sp.val + 1, Nat.succ_lt_succ h⟩) := by
  simp [State.push, h]

/-- Push at depth 16 overflows (R28). -/
theorem State.push_of_full {s : State} (v : Word) (h : ¬ s.sp.val < Config.stackDepth) : s.push v = none := by
  simp [State.push, h]

/-- Pop above depth 0 lowers the pointer by one and answers the slot it then names; the slots keep their values (R29). -/
theorem State.pop_of_pos {s : State} (h : 0 < s.sp.val) :
    s.pop = some (s.stack[s.sp.val - 1]'(by have := s.sp.isLt; omega),
      s.setStack s.stack ⟨s.sp.val - 1, by have := s.sp.isLt; omega⟩) := by
  simp [State.pop, h]

/-- Pop at depth 0 underflows (R29). -/
theorem State.pop_of_zero {s : State} (h : s.sp.val = 0) : s.pop = none := by
  simp [State.pop, h]

/-! ### Keys -/

theorem State.mem_keysDown {s : State} {k : Reg} : k ∈ s.keysDown ↔ s.keyDown k = true := by
  simp [State.keysDown]

/-- The key chosen is one of those down (R172). -/
theorem chooseKey_mem {draw : Nat} {ks : List Reg} {k : Reg} (h : chooseKey draw ks = some k) : k ∈ ks := by
  match ks with
  | [] => simp [chooseKey] at h
  | [a] => simpa [chooseKey, eq_comm] using h
  | a :: b :: l =>
    simp only [chooseKey, Option.some.injEq] at h
    subst h
    have hlt : Config.keyChoice draw % (a :: b :: l).length < (a :: b :: l).length :=
      Nat.mod_lt _ (by simp)
    rw [List.getD_eq_getElem _ _ hlt]
    exact List.getElem_mem hlt

/-- Some key is chosen exactly when one is down (R172). -/
theorem chooseKey_eq_none {draw : Nat} {ks : List Reg} : chooseKey draw ks = none ↔ ks = [] := by
  match ks with
  | [] => simp [chooseKey]
  | [a] => simp [chooseKey]
  | a :: b :: l => simp [chooseKey]

/-- `kidx(v)` (R173): the low nibble, unless it is above 15 under `Fault`. -/
theorem keyIndex_cases (p : Config.KeyIndexPolicy) (v : Byte) :
    (p = .fault ∧ 15 < v.toNat ∧ keyIndex p v = none) ∨
    ((p = .maskLow4 ∨ v.toNat ≤ 15) ∧ keyIndex p v = some (lowNibble v)) := by
  by_cases h : v.toNat ≤ 15
  · exact .inr ⟨.inr h, by simp [keyIndex, h]⟩
  · cases p
    · exact .inl ⟨rfl, by omega, by simp [keyIndex, h]⟩
    · exact .inr ⟨.inl rfl, by simp [keyIndex, h]⟩

/-! ### Bytes and registers -/

@[simp] theorem State.readBytes_length (s : State) (e n : Nat) : (s.readBytes e n).length = n := by
  simp [State.readBytes]

theorem State.readBytes_getElem (s : State) (e n k : Nat) (h : k < (s.readBytes e n).length) :
    (s.readBytes e n)[k] = s.readByte (e + k) := by
  simp [State.readBytes]

@[simp] theorem State.firstRegs_length (s : State) (x : Reg) : (s.firstRegs x).length = x.val + 1 := by
  simp [State.firstRegs]

theorem State.firstRegs_getD (s : State) (x k : Reg) (h : k.val ≤ x.val) :
    (s.firstRegs x).getD k.val 0 = s.readV k := by
  have hk : k.val < (s.firstRegs x).length := by rw [State.firstRegs_length]; omega
  rw [List.getD_eq_getElem _ _ hk]
  simp [State.firstRegs, State.readV]

theorem State.loadedRegs_getElem (s : State) (e : Nat) (x k : Reg) :
    (s.loadedRegs e x)[k.val] = if k.val ≤ x.val then s.readByte (e + k.val) else s.readV k := by
  simp [State.loadedRegs]

/-- The flag is what VF ends with, and the result what V[x] ends with when x is not F (R133). -/
theorem State.writeWithFlag_readV (s : State) (x r : Reg) (v : Byte) (b : Bool) :
    (s.writeWithFlag x v b).readV r = if r = vf then flagByte b else if r = x then v else s.readV r := by
  simp [State.writeWithFlag, State.readV_writeV]

theorem State.writeWithFlag_eq (s : State) (x : Reg) (v : Byte) (b : Bool) :
    ∃ regs, s.writeWithFlag x v b = s.setV regs := ⟨_, rfl⟩

/-! ### The frame buffer -/

/-- Inverting one pixel changes that pixel only (R161). -/
theorem FrameBuffer.pixel_invert (fb : FrameBuffer) (c c' : Fin 64) (r r' : Fin 32) :
    (fb.invert c r).pixel c' r' = if c' = c ∧ r' = r then fb.pixel c r ^^^ 1 else fb.pixel c' r' := by
  unfold FrameBuffer.invert FrameBuffer.pixel
  by_cases hc : c' = c
  · subst hc
    by_cases hr : r' = r
    · subst hr; simp
    · have : r.val ≠ r'.val := fun e => hr (Fin.ext e.symm)
      simp [hr, this]
  · have : c.val ≠ c'.val := fun e => hc (Fin.ext e.symm)
    simp [hc, this]

/-- Two frame buffers with the same pixels are the same. -/
theorem FrameBuffer.ext_pixel {f g : FrameBuffer} (h : ∀ c r, f.pixel c r = g.pixel c r) : f = g := by
  refine Vector.ext fun c hc => Vector.ext fun r hr => ?_
  exact h ⟨c, hc⟩ ⟨r, hr⟩

@[simp] theorem FrameBuffer.pixel_blank (c : Fin 64) (r : Fin 32) : FrameBuffer.blank.pixel c r = 0 := by
  simp [FrameBuffer.blank, FrameBuffer.pixel]

end Sys2Proof.Machine
end

