-- ==== Sys2Proof/Laws/PerInstr.lean ====
section
/-! SUPPORT. The per-instruction family `EncodesInRow`: the word an instruction encodes to carries, under the mask of the
instruction's row of spec/30_encoding.md R94, that row's fixed bits. -/

namespace Sys2Proof

/-- The mask and pattern of the instruction's own row of the opcode table (R94). -/
def Instr.fixedBits : Instr → Word × Word
  | .cls => (0xFFFF, 0x00E0)
  | .ret => (0xFFFF, 0x00EE)
  | .sys _ => (0xF000, 0x0000)
  | .jp _ => (0xF000, 0x1000)
  | .call _ => (0xF000, 0x2000)
  | .seByte _ _ => (0xF000, 0x3000)
  | .sneByte _ _ => (0xF000, 0x4000)
  | .seReg _ _ => (0xF00F, 0x5000)
  | .ldByte _ _ => (0xF000, 0x6000)
  | .addByte _ _ => (0xF000, 0x7000)
  | .ldReg _ _ => (0xF00F, 0x8000)
  | .orReg _ _ => (0xF00F, 0x8001)
  | .andReg _ _ => (0xF00F, 0x8002)
  | .xorReg _ _ => (0xF00F, 0x8003)
  | .addReg _ _ => (0xF00F, 0x8004)
  | .sub _ _ => (0xF00F, 0x8005)
  | .shr _ _ => (0xF00F, 0x8006)
  | .subn _ _ => (0xF00F, 0x8007)
  | .shl _ _ => (0xF00F, 0x800E)
  | .sneReg _ _ => (0xF00F, 0x9000)
  | .ldI _ => (0xF000, 0xA000)
  | .jpV0 _ => (0xF000, 0xB000)
  | .rnd _ _ => (0xF000, 0xC000)
  | .drw _ _ _ => (0xF000, 0xD000)
  | .skp _ => (0xF0FF, 0xE09E)
  | .sknp _ => (0xF0FF, 0xE0A1)
  | .ldVxDt _ => (0xF0FF, 0xF007)
  | .ldVxK _ => (0xF0FF, 0xF00A)
  | .ldDtVx _ => (0xF0FF, 0xF015)
  | .ldStVx _ => (0xF0FF, 0xF018)
  | .addI _ => (0xF0FF, 0xF01E)
  | .ldF _ => (0xF0FF, 0xF029)
  | .ldB _ => (0xF0FF, 0xF033)
  | .storeRegs _ => (0xF0FF, 0xF055)
  | .loadRegs _ => (0xF0FF, 0xF065)

end Sys2Proof

namespace Sys2Proof.Laws.EncodesInRow

/-- The instruction's word carries its row's fixed bits (R94). -/
def Statement (i : Instr) : Prop := encode i &&& i.fixedBits.1 = i.fixedBits.2

theorem cls : Statement .cls := rfl
theorem ret : Statement .ret := rfl
theorem sys (addr : Addr12) : Statement (.sys addr) := nibble_addr_and_F000 0x0 addr
theorem jp (addr : Addr12) : Statement (.jp addr) := nibble_addr_and_F000 0x1 addr
theorem call (addr : Addr12) : Statement (.call addr) := nibble_addr_and_F000 0x2 addr
theorem seByte (x : Reg) (byte : Byte) : Statement (.seByte x byte) := nibble_reg_byte_and_F000 0x3 (regBits x) byte
theorem sneByte (x : Reg) (byte : Byte) : Statement (.sneByte x byte) := nibble_reg_byte_and_F000 0x4 (regBits x) byte
theorem seReg (x y : Reg) : Statement (.seReg x y) := four_nibbles_and_F00F 0x5 (regBits x) (regBits y) 0x0
theorem ldByte (x : Reg) (byte : Byte) : Statement (.ldByte x byte) := nibble_reg_byte_and_F000 0x6 (regBits x) byte
theorem addByte (x : Reg) (byte : Byte) : Statement (.addByte x byte) := nibble_reg_byte_and_F000 0x7 (regBits x) byte
theorem ldReg (x y : Reg) : Statement (.ldReg x y) := four_nibbles_and_F00F 0x8 (regBits x) (regBits y) 0x0
theorem orReg (x y : Reg) : Statement (.orReg x y) := four_nibbles_and_F00F 0x8 (regBits x) (regBits y) 0x1
theorem andReg (x y : Reg) : Statement (.andReg x y) := four_nibbles_and_F00F 0x8 (regBits x) (regBits y) 0x2
theorem xorReg (x y : Reg) : Statement (.xorReg x y) := four_nibbles_and_F00F 0x8 (regBits x) (regBits y) 0x3
theorem addReg (x y : Reg) : Statement (.addReg x y) := four_nibbles_and_F00F 0x8 (regBits x) (regBits y) 0x4
theorem sub (x y : Reg) : Statement (.sub x y) := four_nibbles_and_F00F 0x8 (regBits x) (regBits y) 0x5
theorem shr (x y : Reg) : Statement (.shr x y) := four_nibbles_and_F00F 0x8 (regBits x) (regBits y) 0x6
theorem subn (x y : Reg) : Statement (.subn x y) := four_nibbles_and_F00F 0x8 (regBits x) (regBits y) 0x7
theorem shl (x y : Reg) : Statement (.shl x y) := four_nibbles_and_F00F 0x8 (regBits x) (regBits y) 0xE
theorem sneReg (x y : Reg) : Statement (.sneReg x y) := four_nibbles_and_F00F 0x9 (regBits x) (regBits y) 0x0
theorem ldI (addr : Addr12) : Statement (.ldI addr) := nibble_addr_and_F000 0xA addr
theorem jpV0 (addr : Addr12) : Statement (.jpV0 addr) := nibble_addr_and_F000 0xB addr
theorem rnd (x : Reg) (byte : Byte) : Statement (.rnd x byte) := nibble_reg_byte_and_F000 0xC (regBits x) byte
theorem drw (x y : Reg) (nibble : Nibble) : Statement (.drw x y nibble) := four_nibbles_and_F000 0xD (regBits x) (regBits y) nibble
theorem skp (x : Reg) : Statement (.skp x) := nibble_reg_byte_and_F0FF 0xE (regBits x) 0x9E
theorem sknp (x : Reg) : Statement (.sknp x) := nibble_reg_byte_and_F0FF 0xE (regBits x) 0xA1
theorem ldVxDt (x : Reg) : Statement (.ldVxDt x) := nibble_reg_byte_and_F0FF 0xF (regBits x) 0x07
theorem ldVxK (x : Reg) : Statement (.ldVxK x) := nibble_reg_byte_and_F0FF 0xF (regBits x) 0x0A
theorem ldDtVx (x : Reg) : Statement (.ldDtVx x) := nibble_reg_byte_and_F0FF 0xF (regBits x) 0x15
theorem ldStVx (x : Reg) : Statement (.ldStVx x) := nibble_reg_byte_and_F0FF 0xF (regBits x) 0x18
theorem addI (x : Reg) : Statement (.addI x) := nibble_reg_byte_and_F0FF 0xF (regBits x) 0x1E
theorem ldF (x : Reg) : Statement (.ldF x) := nibble_reg_byte_and_F0FF 0xF (regBits x) 0x29
theorem ldB (x : Reg) : Statement (.ldB x) := nibble_reg_byte_and_F0FF 0xF (regBits x) 0x33
theorem storeRegs (x : Reg) : Statement (.storeRegs x) := nibble_reg_byte_and_F0FF 0xF (regBits x) 0x55
theorem loadRegs (x : Reg) : Statement (.loadRegs x) := nibble_reg_byte_and_F0FF 0xF (regBits x) 0x65

end Sys2Proof.Laws.EncodesInRow
end

