-- ==== Sys2Proof/Tests/Slice0.lean ====
section
/-! SUPPORT. Tests whose expected results come from spec/95_test_vectors.md and spec/30_encoding.md, and for each statement
with hypotheses a witness that meets them. -/

namespace Sys2Proof.Tests

open Sys2Proof.Machine

/-! ### Helpers -/

/-- The state after the one step that runs this word, if the step answers a next state. -/
def runWord (s : State) (w : Nat) : Option State :=
  match step (s.withFetchWord 16 w) with
  | .next t => some t
  | .fault _ => none
  | .refused _ => none

/-- The state an answer goes on in, if it does. -/
def goesOn : StepResult → Option State
  | .next t => some t
  | .fault _ => none
  | .refused _ => none

/-- The state in a host call with one CPU cycle left. -/
def inCall (s : State) : State := s.setCall (some { cpu := 1, tmr := 0, timersFirst := false })

/-- Reset with these registers written. -/
def withRegs : List (Reg × Byte) → State
  | [] => State.reset
  | p :: ps => (withRegs ps).writeV p.1 p.2

/-- Reset with `I` at an address and bytes in memory from it. -/
def withBytes (i : Word) (bs : List Byte) (regs : List (Reg × Byte)) : State :=
  ((withRegs regs).setI i).setMem (Memory.writeBytes [] i.toNat bs)

/-- A state with other parameters. -/
def withParams (s : State) (p : Config.Params) : State := { s with params := p }

/-- Reset with these keys holding 1. -/
def withKeys (s : State) (ks : List Reg) : State :=
  s.setKeys (ks.foldl (fun v k => v.set k.val 1) (Vector.replicate 16 0))

/-- The clock of the source's test, and the CPU block first. -/
def clocked (hz : Nat) : Config.Params :=
  { Config.defaultParams with cpuClockHz := some hz, timerBlockOrder := .cpuFirst }

/-- Every parameter at its other value. -/
def otherParams : Config.Params :=
  { Config.defaultParams with
    shiftSource := .vy, jumpOffsetReg := .vx, sysMode := .fault, addrPolicy := .wrap12, oddPcPolicy := .allow,
    keyIndexPolicy := .maskLow4, loadStoreIMode := .increment, timerBlockOrder := .timerFirst }

/-! ### WellFormed refuses what no word spells (30_encoding.md R88) -/

theorem test_sys_0E0_ill_formed : Instr.wellFormed (.sys 0x0E0) = false := by decide
theorem test_sys_0EE_ill_formed : Instr.wellFormed (.sys 0x0EE) = false := by decide
theorem test_sys_0E1_well_formed : Instr.wellFormed (.sys 0x0E1) = true := by decide

/-! ### Decoding: every constructor by a word written out from R82, R83 and R94 -/

/-- T1, T2, T3. -/
theorem test_decode_zero_row : decode 0b0000000011100000 = some .cls ∧ decode 0b0000000011101110 = some .ret ∧
    decode 0b0000000011100001 = some (.sys 0x0E1) ∧ decode 0x0000 = some (.sys 0) ∧ decode 0x0FFF = some (.sys 0xFFF) := by
  decide

theorem test_decode_jumps : decode 0b0001001000110100 = some (.jp 0x234) ∧ decode 0b0010001100000000 = some (.call 0x300) ∧
    decode 0b1011001111111110 = some (.jpV0 0x3FE) := by decide

theorem test_decode_skips : decode 0b0011001101000010 = some (.seByte 3 0x42) ∧
    decode 0b0100001101000010 = some (.sneByte 3 0x42) ∧ decode 0b0101000100100000 = some (.seReg 1 2) ∧
    decode 0b1001000100100000 = some (.sneReg 1 2) := by decide

theorem test_decode_immediate : decode 0b0110101000101111 = some (.ldByte 10 0x2F) ∧
    decode 0b0111001000000010 = some (.addByte 2 0x02) ∧ decode 0b1100001100001111 = some (.rnd 3 0x0F) := by decide

theorem test_decode_register_pairs : decode 0b1000000101010000 = some (.ldReg 1 5) ∧
    decode 0b1000000100100001 = some (.orReg 1 2) ∧ decode 0b1000000100100010 = some (.andReg 1 2) ∧
    decode 0b1000000100100011 = some (.xorReg 1 2) ∧ decode 0b1000111100100100 = some (.addReg 15 2) ∧
    decode 0b1000000100100101 = some (.sub 1 2) ∧ decode 0b1000010001110110 = some (.shr 4 7) ∧
    decode 0b1000000100100111 = some (.subn 1 2) ∧ decode 0b1000010001111110 = some (.shl 4 7) := by decide

theorem test_decode_memory_index : decode 0b1010001011110000 = some (.ldI 0x2F0) ∧
    decode 0b1111000100011110 = some (.addI 1) ∧ decode 0b1111000000101001 = some (.ldF 0) ∧
    decode 0b1111001100110011 = some (.ldB 3) ∧ decode 0b1111001001010101 = some (.storeRegs 2) ∧
    decode 0b1111001001100101 = some (.loadRegs 2) := by decide

theorem test_decode_display : decode 0b1101000100100101 = some (.drw 1 2 5) := by decide

theorem test_decode_input : decode 0b1110000110011110 = some (.skp 1) ∧ decode 0b1110001010100001 = some (.sknp 2) ∧
    decode 0b1111001100001010 = some (.ldVxK 3) := by decide

theorem test_decode_timers : decode 0b1111010100000111 = some (.ldVxDt 5) ∧ decode 0b1111010100010101 = some (.ldDtVx 5) ∧
    decode 0b1111011000011000 = some (.ldStVx 6) := by decide

/-- T4, T5, T7, T8, T9, E11: neighbours of entries that match none. -/
theorem test_decode_unknown : decode 0x5121 = none ∧ decode 0x8008 = none ∧ decode 0x800F = none ∧ decode 0x9121 = none ∧
    decode 0xE19F = none ∧ decode 0xF108 = none ∧ decode 0xF166 = none ∧ decode 0xFFFF = none := by decide

/-- The high byte is the first of the two (R53). -/
theorem test_bytes_big_endian : decodeBytes [0x12, 0x34, 0x56] = .ok (.jp 0x234) [0x56] ∧ decodeBytes [0x12] = .truncated ∧
    decodeTableWord 16 0x1234 = some (.jp 0x234) ∧ decodeTableWord 16 0x9121 = none := by decide

/-! ### The CPU cycle (L2.1) -/

/-- T11, T13: alignment before range. -/
theorem test_odd_pc_faults :
    (goesOn (step (inCall (State.reset.setPc 0x201)))).map (fun t => (t.status, t.pc)) = some (.halted (.misalignedFetch 0x201), 0x201) ∧
    (goesOn (step (inCall (State.reset.setPc 0xFFF)))).map (·.status) = some (.halted (.misalignedFetch 0xFFF)) := by decide

/-- T12, T14: odd pc allowed. -/
theorem test_odd_pc_allowed :
    (runWord (withParams (State.reset.setPc 0x201) { Config.defaultParams with oddPcPolicy := .allow }) 0x6123).map
      (fun t => (t.readV 1, t.pc)) = some (0x23, 0x203) ∧
    (goesOn (step (inCall (withParams (State.reset.setPc 0xFFF) { Config.defaultParams with oddPcPolicy := .allow })))).map
        (·.status) =
      some (.halted (.addressFault 0x1000)) := by decide

/-- T15, T16. -/
theorem test_pc_above_memory :
    (goesOn (step (inCall (State.reset.setPc 0x1000)))).map (·.status) = some (.halted (.addressFault 0x1000)) ∧
    (runWord (withParams (State.reset.setPc 0x1000) otherParams) 0x6005).map (fun t => (t.readV 0, t.pc)) =
      some (0x05, 0x1002) ∧
    ((State.reset.setPc 0x1000).setStatus .running).fetchFault = some (.addressFault 0x1000) := by decide

/-- T17. -/
theorem test_unknown_opcode :
    (runWord State.reset 0xFFFF).map (fun t => (t.status, t.pc)) = some (.halted (.unknownOpcode 0xFFFF), 0x200) := by decide

/-- Between host calls nothing runs (R240); a halted machine stands at its fault (R204); before a load a host call has no step
(R250). -/
theorem test_no_cycle_runs : step State.reset = .next State.reset ∧
    step (State.reset.raise .romReadFailure) = .fault .romReadFailure ∧
    step (State.powerOn.setInputs [.hostCall 25]) = .refused .unloaded := ⟨rfl, rfl, rfl⟩

/-! ### Control flow (L2.2) -/

/-- T20. -/
theorem test_cls : (runWord { State.reset with fb := State.reset.fb.invert 5 7 } 0x00E0).map
    (fun t => (t.fb.pixel 5 7, t.dirty, t.pc)) = some (0, 1, 0x202) := by decide

/-- T22. -/
theorem test_ret : (runWord (State.reset.setStack (State.reset.stack.set 0 0x204) 1) 0x00EE).map
    (fun t => (t.sp, t.pc, t.stack[0])) = some (0, 0x206, 0x204) := by decide

/-- T23. -/
theorem test_ret_underflow : (runWord State.reset 0x00EE).map (fun t => (t.sp, t.pc, t.log)) =
    some (0, 0x202, [.stackUnderflow 0x200]) := by decide

/-- T24, T25. -/
theorem test_sys : (runWord State.reset 0x0123).map (·.pc) = some 0x202 ∧
    (runWord (withParams State.reset otherParams) 0x0123).map (fun t => (t.status, t.pc)) =
      some (.halted (.sysFault 0x0123), 0x200) := by decide

/-- T27. -/
theorem test_jp : (runWord State.reset 0x1234).map (·.pc) = some 0x234 := by decide

/-- T31. -/
theorem test_call : (runWord (State.reset.setStack State.reset.stack 15) 0x2300).map (fun t => (t.stack[15], t.sp, t.pc)) =
    some (0x200, 16, 0x300) := by decide

/-- T32. -/
theorem test_call_overflow : (runWord (State.reset.setStack State.reset.stack 16) 0x2300).map
    (fun t => (t.pc, t.sp, t.log, decide (t.stack = State.reset.stack))) = some (0x202, 16, [.stackOverflow 0x200], true) := by
  decide

/-- T33 to T36. -/
theorem test_skip_byte : (runWord (withRegs [(3, 0x42)]) 0x3342).map (·.pc) = some 0x204 ∧
    (runWord (withRegs [(3, 0x41)]) 0x3342).map (·.pc) = some 0x202 ∧
    (runWord (withRegs [(3, 0x42)]) 0x4342).map (·.pc) = some 0x202 ∧
    (runWord (withRegs [(3, 0x41)]) 0x4342).map (·.pc) = some 0x204 := by decide

/-- T37, T38, T40, T41. -/
theorem test_skip_reg : (runWord (withRegs [(1, 7), (2, 7)]) 0x5120).map (·.pc) = some 0x204 ∧
    (runWord (withRegs [(1, 7), (2, 8)]) 0x5120).map (·.pc) = some 0x202 ∧
    (runWord (withRegs [(1, 7), (2, 7)]) 0x9120).map (·.pc) = some 0x202 ∧
    (runWord (withRegs [(1, 7), (2, 8)]) 0x9120).map (·.pc) = some 0x204 := by decide

/-- T46, T47. -/
theorem test_jpV0 : (runWord (withRegs [(0, 0xFF)]) 0xBF02).map (·.pc) = some 0x1001 ∧
    (runWord (withParams (withRegs [(0, 0x10), (3, 0x20)]) otherParams) 0xB300).map (·.pc) = some 0x320 := by decide

/-! ### Register operations (L2.3) -/

/-- T50. -/
theorem test_ldByte : (runWord State.reset 0x6A2F).map (fun t => (t.readV 10, t.pc)) = some (0x2F, 0x202) := by decide

/-- T51, T52. -/
theorem test_addByte : (runWord (withRegs [(2, 0xFF), (15, 0x55)]) 0x7202).map (fun t => (t.readV 2, t.readV vf)) =
      some (0x01, 0x55) ∧
    (runWord (withRegs [(15, 0x10)]) 0x7FF5).map (·.readV vf) = some 0x05 := by decide

/-- T53. -/
theorem test_ldReg : (runWord (withRegs [(5, 0x33)]) 0x8150).map (·.readV 1) = some 0x33 := by decide

/-- T54, T55, T56. -/
theorem test_bitwise : (runWord (withRegs [(1, 0x0F), (2, 0xF0), (15, 9)]) 0x8121).map (fun t => (t.readV 1, t.readV vf)) =
      some (0xFF, 9) ∧
    (runWord (withRegs [(1, 0x3C), (2, 0x0F)]) 0x8122).map (·.readV 1) = some 0x0C ∧
    (runWord (withRegs [(1, 0x3C), (2, 0x0F)]) 0x8123).map (·.readV 1) = some 0x33 := by decide

/-- E2, T61. -/
theorem test_addReg : (runWord (withRegs [(1, 250), (2, 10)]) 0x8124).map (fun t => (t.readV 1, t.readV vf, t.pc)) =
      some (4, 1, 0x202) ∧
    (runWord (withRegs [(1, 200), (2, 55)]) 0x8124).map (fun t => (t.readV 1, t.readV vf)) = some (255, 0) := by decide

/-- T64, T66: VF as destination and as operand. -/
theorem test_addReg_vf : (runWord (withRegs [(15, 0xFF), (2, 0x01)]) 0x8F24).map (·.readV vf) = some 1 ∧
    (runWord (withRegs [(1, 10), (15, 0xF0)]) 0x81F4).map (fun t => (t.readV 1, t.readV vf)) = some (250, 0) := by decide

/-- E4, T67. -/
theorem test_sub : (runWord (withRegs [(1, 3), (2, 10)]) 0x8125).map (fun t => (t.readV 1, t.readV vf)) = some (249, 0) ∧
    (runWord (withRegs [(1, 5), (2, 5), (15, 1)]) 0x8125).map (fun t => (t.readV 1, t.readV vf)) = some (0, 0) := by decide

/-- T72, T75. -/
theorem test_subn : (runWord (withRegs [(1, 3), (2, 10)]) 0x8127).map (fun t => (t.readV 1, t.readV vf)) = some (7, 1) ∧
    (runWord (withRegs [(1, 1), (2, 0)]) 0x8127).map (fun t => (t.readV 1, t.readV vf)) = some (255, 0) := by decide

/-- T82, T83, T84. -/
theorem test_shr : (runWord (withRegs [(4, 0x05), (7, 0xF0)]) 0x8476).map (fun t => (t.readV 4, t.readV vf)) = some (0x02, 1) ∧
    (runWord (withParams (withRegs [(4, 0x05), (7, 0xF0)]) otherParams) 0x8476).map (fun t => (t.readV 4, t.readV vf)) =
      some (0x78, 0) ∧
    (runWord (withRegs [(15, 0x03)]) 0x8F06).map (·.readV vf) = some 1 := by decide

/-- T85, T90, T91. -/
theorem test_shl : (runWord (withRegs [(4, 0x81)]) 0x840E).map (fun t => (t.readV 4, t.readV vf)) = some (0x02, 1) ∧
    (runWord (withParams (withRegs [(4, 0x01), (7, 0x81)]) otherParams) 0x847E).map (fun t => (t.readV 4, t.readV vf)) =
      some (0x02, 1) ∧
    (runWord (withRegs [(15, 0x40)]) 0x8F0E).map (·.readV vf) = some 0 := by decide

/-! ### Memory and index (L2.4) -/

/-- T100. -/
theorem test_ldI : (runWord State.reset 0xA2F0).map (fun t => (t.I, t.pc)) = some (0x2F0, 0x202) := by decide

/-- T101, T102. -/
theorem test_addI : (runWord ((withRegs [(1, 1), (15, 7)]).setI 0xFFF) 0xF11E).map (fun t => (t.I, t.readV vf)) =
      some (0x1000, 7) ∧
    (runWord ((withRegs [(1, 1)]).setI 0xFFFF) 0xF11E).map (·.I) = some 0 := by decide

/-- T104, T105. -/
theorem test_ldF : (runWord (withRegs [(0, 0x0A)]) 0xF029).map (·.I) = some 0x082 ∧
    (runWord (withRegs [(0, 0xFF)]) 0xF029).map (·.I) = some 0x54B := by decide

/-- T106, T109. -/
theorem test_ldB : (runWord ((withRegs [(3, 254)]).setI 0x300) 0xF333).map
      (fun t => ((List.range 3).map fun k => t.mem.read (0x300 + k), t.I)) = some ([2, 5, 4], 0x300) ∧
    (runWord (withParams ((withRegs [(3, 123)]).setI 0xFFE) otherParams) 0xF333).map
      (fun t => [0xFFE, 0xFFF, 0x000].map t.mem.read) = some [1, 2, 3] := by decide

/-- T108. -/
theorem test_ldB_faults : (runWord ((withRegs [(3, 7)]).setI 0xFFE) 0xF333).map
    (fun t => (t.status, t.mem.read 0xFFE, t.mem.read 0xFFF, t.pc)) = some (.halted (.addressFault 0x1000), 0, 0, 0x200) := by
  decide

/-- T110, T111. -/
theorem test_storeRegs : (runWord ((withRegs [(0, 1), (1, 2), (2, 3), (3, 4)]).setI 0x400) 0xF255).map
      (fun t => ((List.range 4).map fun k => t.mem.read (0x400 + k), t.I)) = some ([1, 2, 3, 0], 0x400) ∧
    (runWord (withParams ((withRegs [(0, 1)]).setI 0x400) otherParams) 0xF255).map (·.I) = some 0x403 := by decide

/-- T113, T114. -/
theorem test_storeRegs_edge : (runWord ((withRegs [(0, 1), (15, 0x77)]).setI 0xFF0) 0xFF55).map
      (fun t => [0xFF0, 0xFF1, 0xFFF].map t.mem.read) = some [1, 0, 0x77] ∧
    (runWord ((withRegs [(0, 1)]).setI 0xFF1) 0xFF55).map (fun t => (t.status, t.mem.read 0xFF1)) =
      some (.halted (.addressFault 0x1000), 0) := by decide

/-- T115, T117. -/
theorem test_loadRegs : (runWord (withBytes 0x400 [1, 2, 3, 4] []) 0xF265).map
      (fun t => ([0, 1, 2, 3].map t.readV, t.I)) = some ([1, 2, 3, 0], 0x400) ∧
    (runWord (withParams (withBytes 0x400 [1, 2, 3, 4] []) otherParams) 0xF265).map (·.I) = some 0x403 := by decide

/-! ### Random and display (L2.5) -/

/-- T123: whatever byte is drawn. -/
theorem test_rnd : (runWord State.reset 0xC30F).map (fun t => (t.readV 3, t.draws)) = some (Config.randomByte 0 &&& 0x0F, 1) :=
  rfl

/-- T126: both wraps. -/
theorem test_drw_wraps : (runWord (withBytes 0x300 [0xFF, 0x81] [(0, 62), (1, 31)]) 0xD012).map
    (fun t => ([(62, 31), (63, 31), (0, 31), (5, 31), (6, 31), (62, 0), (63, 0), (5, 0)].map fun p => t.fb.pixel p.1 p.2,
      t.readV vf, t.dirty)) = some ([1, 1, 1, 1, 0, 1, 0, 1], 0, 1) := by decide

/-- T129, T130. -/
theorem test_drw_collides : (runWord { withBytes 0x300 [0x0F] [] with
      fb := (State.reset.fb.invert 0 0).invert 7 0 } 0xD011).map
        (fun t => ([0, 4, 6, 7].map fun c => t.fb.pixel c 0, t.readV vf)) = some ([1, 1, 1, 0], 1) ∧
    (runWord (withBytes 0x300 [0x80] [(15, 5), (1, 2)]) 0xDF11).map (fun t => (t.fb.pixel 5 2, t.readV vf)) =
      some (1, 0) := by decide

/-! ### Input (L2.6) -/

/-- T140, T144. -/
theorem test_skp : (runWord (withKeys (withRegs [(2, 5)]) [5]) 0xE29E).map (·.pc) = some 0x204 ∧
    (runWord (withRegs [(2, 16)]) 0xE29E).map (fun t => (t.status, t.pc)) = some (.halted (.keyIndexFault 16), 0x200) := by
  decide

/-- T143, and T145's mask under SKNP. -/
theorem test_sknp : (runWord (withRegs [(2, 5)]) 0xE2A1).map (·.pc) = some 0x204 ∧
    (runWord (withParams (withKeys (withRegs [(2, 0x15)]) [5]) otherParams) 0xE2A1).map (·.pc) = some 0x202 := by decide

/-- T146, T147. -/
theorem test_key_wait : (runWord State.reset 0xF30A).map (fun t => (t.readV 3, t.pc)) = some (0, 0x200) ∧
    (runWord (withKeys State.reset [0xC]) 0xF30A).map (fun t => (t.readV 3, t.pc)) = some (0x0C, 0x202) := by decide

/-! ### Timers (L2.7) -/

/-- T160, T161, T162. -/
theorem test_timer_instructions : (runWord (State.reset.setDT 0x3C) 0xF507).map (fun t => (t.readV 5, t.DT)) =
      some (0x3C, 0x3C) ∧
    (runWord (withRegs [(5, 5)]) 0xF515).map (·.DT) = some 5 ∧
    (runWord (withRegs [(6, 2)]) 0xF618).map (fun t => (t.ST, t.soundOn)) = some (2, true) := by decide

/-- E7, T163: five timer cycles, then a sixth. -/
theorem test_timer_cycles : (runTimers 5 (State.reset.setDT 5)).DT = 0 ∧ (runTimers 6 (State.reset.setDT 5)).DT = 0 ∧
    (((State.reset.setDT 3).setST 1).timerCycle.DT, ((State.reset.setDT 3).setST 1).timerCycle.ST) = (2, 0) := by decide

/-! ### Host calls and loads (L2.8, L2.9) -/

/-- The state of L2.8: `JP 0x200` at 0x200. -/
def looping (p : Config.Params) : State := withParams (State.reset.placeWord 0x1200) p

/-- E8 and T170: 25 ms at 400 Hz start a call of 10 CPU cycles and 1 timer cycle, which 11 steps run to its end. -/
theorem test_call_counts : (goesOn (hostCall 25 (looping (clocked 400)))).map (fun t => (t.call, t.accCpu, t.accTmr)) =
      some (some { cpu := 10, tmr := 1, timersFirst := false }, 0, 500) ∧
    (goesOn (core.run 11 ((looping (clocked 400)).setInputs [.hostCall 25]))).map (·.call) =
      some (some { cpu := 0, tmr := 1, timersFirst := false }) ∧
    (goesOn (core.run 12 ((looping (clocked 400)).setInputs [.hostCall 25]))).map (·.call) = some none := by decide

/-- E9 and T171: 13 ms twice at 400 Hz, in thousandths of a cycle. -/
theorem test_two_calls : (goesOn (wholeCall 13 (looping (clocked 400)))).map (fun t => (t.accCpu, t.accTmr)) = some (200, 780) ∧
    (goesOn (runCalls [13, 13] (looping (clocked 400)))).map (fun t => (t.accCpu, t.accTmr)) = some (400, 560) ∧
    cyclesCounted 400 0 [13, 13] = 10 ∧ cyclesCounted 60 0 [13, 13] = 1 := by decide

/-- T181, T182: a fault in the CPU block, with either block first. -/
theorem test_faulting_call :
    (goesOn (core.run 3 (withParams { (State.reset.setDT 3) with
        mem := Memory.writeBytes [] 0x200 [0x60, 0x01, 0xFF, 0xFF], inputs := [.hostCall 25] } (clocked 400)))).map (fun t => (t.status, t.pc, t.DT, t.accTmr, t.call)) =
        some (.halted (.unknownOpcode 0xFFFF), 0x202, 3, 500, none) ∧
    (goesOn (wholeCall 25 (withParams { (State.reset.setDT 3) with mem := Memory.writeBytes [] 0x200 [0x60, 0x01, 0xFF, 0xFF] }
      { clocked 400 with timerBlockOrder := .timerFirst }))).map (fun t => (t.status, t.DT)) =
        some (.halted (.unknownOpcode 0xFFFF), 2) := by decide

set_option maxRecDepth 8000 in
/-- T191. -/
theorem test_load : (goesOn (loadRom (some [0x12, 0x00]) ((withRegs [(5, 9)]).raise .romReadFailure))).map
    (fun t => (t.readV 5, t.status, t.pc, t.mem.read 0x200, t.mem.read 0x09F)) = some (0, .running, 0x200, 0x12, 0x80) := by
  decide

set_option maxRecDepth 8000 in
/-- T190: a ROM of no bytes leaves the reset state, and its first cycle runs SYS 0x000. -/
theorem test_empty_load : State.powerOn.loadedWith [] = State.reset ∧
    (goesOn (step (inCall State.reset))).map (·.pc) = some 0x202 := by decide

/-- T192. -/
theorem test_font : [0x050, 0x054, 0x09B, 0x09F, 0x04F, 0x0A0].map State.reset.mem.read = [0xF0, 0xF0, 0xF0, 0x80, 0, 0] := by
  decide

/-- E13: 3584 bytes fit, 3585 do not. -/
theorem test_rom_limit : (List.replicate 3584 (0 : Byte)).length ≤ Config.romMax ∧
    Config.romMax < (List.replicate 3585 (0 : Byte)).length := by
  simp only [List.length_replicate]
  decide

/-! ### Witnesses: states and operands that meet the hypotheses of the statements, each clause at a boundary of its range -/

theorem witness_DecodeOfEncode : Instr.wellFormed (.sys 0xFFF) = true ∧ Instr.wellFormed (.loadRegs 15) = true := by decide

theorem witness_EncodeOfDecode : decode 0x00E1 = some (.sys 0x0E1) ∧ decode 0xFF65 = some (.loadRegs 15) := by decide

/-- Each clause of the list, and a word on the other side of it. -/
theorem witness_UnknownWordsAreThoseListed : decode 0x5FFF = none ∧ decode 0x800D = none ∧ decode 0x800E ≠ none ∧
    decode 0x9001 = none ∧ decode 0xE09F = none ∧ decode 0xF064 = none ∧ decode 0xF065 ≠ none := by decide

theorem witness_OnlyClsAndRetWordsMatchTwice : (opcodeTable.filter fun r => r.matchesWord 0x00E0).length = 2 ∧
    (opcodeTable.filter fun r => r.matchesWord 0x00EE).length = 2 ∧
    (opcodeTable.filter fun r => r.matchesWord 0x00EF).length = 1 := by decide

theorem witness_FetchReadsBigEndianWord : State.reset.params.addrPolicy = .fault ∧
    (withParams (State.reset.setPc 0xFFFF) otherParams).params.addrPolicy = .wrap12 := by decide

/-- At the last address a fetch may have, the last cycle of a call. -/
theorem witness_StepRunsDecodedInstruction : (inCall (State.reset.setPc 0xFFE)).status = .running ∧
    (inCall (State.reset.setPc 0xFFE)).call = some { cpu := 1, tmr := 0, timersFirst := false } ∧ (State.reset.setPc 0xFFE).pc.toNat % 2 = 0 ∧
    (State.reset.setPc 0xFFE).InRange (State.reset.setPc 0xFFE).pc.toNat 2 ∧
    decode (State.reset.setPc 0xFFE).fetchWord = some (.sys 0) :=
  ⟨rfl, rfl, rfl, .inr (.inr (by decide)), by decide⟩

/-- In a call, an odd pc; pc at 0x1000, and at 0xFFF with odd allowed; an unknown word at 0xFFE. -/
theorem witness_CycleFaultsInOrder :
    ((inCall (State.reset.setPc 0xFFF)).status = .running ∧
      (inCall (State.reset.setPc 0xFFF)).call = some { cpu := 1, tmr := 0, timersFirst := false }) ∧
    ((State.reset.setPc 0xFFF).params.oddPcPolicy = .fault ∧ (State.reset.setPc 0xFFF).pc.toNat % 2 = 1) ∧
    ((State.reset.setPc 0x1000).pc.toNat % 2 = 0 ∧ (State.reset.setPc 0x1000).params.addrPolicy = .fault ∧
      0xFFF ≤ (State.reset.setPc 0x1000).pc.toNat) ∧
    ((withParams (State.reset.setPc 0xFFF) { Config.defaultParams with oddPcPolicy := .allow }).params.oddPcPolicy = .allow ∧
      0xFFF ≤ (State.reset.setPc 0xFFF).pc.toNat) ∧
    decode ((State.reset.setPc 0xFFE).placeWord 0xFFFF).fetchWord = none := by decide

/-- The three clauses: a halted machine with no host action queued, one with a key write queued. -/
theorem witness_HaltedLeavesOnlyByLoad : (State.reset.raise .romReadFailure).status = .halted .romReadFailure ∧
    (State.reset.raise .romReadFailure).call = none ∧ (State.reset.raise .romReadFailure).inputs = [] ∧
    step ((State.reset.raise .romReadFailure).setInputs [.readFrame]) =
      .next (((State.reset.raise .romReadFailure).setInputs []).setDirty 0) := ⟨rfl, rfl, rfl, rfl⟩

theorem witness_UnloadedMovesOnlyByLoad : State.powerOn.status = .unloaded ∧
    ((State.powerOn.setInputs [.readFrame]).inputs = .readFrame :: [] ∧ ∀ src, HostAction.readFrame ≠ .loadRom src) ∧
    (inCall State.powerOn).call ≠ none ∧ (State.powerOn.call = none ∧ State.powerOn.inputs = []) :=
  ⟨rfl, ⟨rfl, fun _ h => by cases h⟩, by decide, rfl, rfl⟩

theorem witness_PlacedWordIsRunNext : (State.reset.setPc 0xFFE).pc.toNat % 2 = 0 ∧ (State.reset.setPc 0xFFE).pc.toNat ≤ 0xFFE ∧
    decode 0x1234 = some (.jp 0x234) := by decide

/-- The highest place a store over the next instruction can start. -/
theorem witness_StoreIsSeenByNextFetch : ((State.reset.setPc 0xFFC).setI 0xFFE).I = ((State.reset.setPc 0xFFC).setI 0xFFE).pc + 2 ∧
    ((State.reset.setPc 0xFFC).setI 0xFFE).I.toNat + (1 : Reg).val ≤ 0xFFF := by decide

theorem witness_RetPopsOrLogsUnderflow : 0 < (State.reset.setStack State.reset.stack 16).sp.val ∧
    0 < (State.reset.setStack State.reset.stack 1).sp.val ∧ State.reset.sp.val = 0 := by decide

theorem witness_CallPushesOrLogsOverflow : (State.reset.setStack State.reset.stack 15).sp.val < 16 ∧ State.reset.sp.val < 16 ∧
    (State.reset.setStack State.reset.stack 16).sp.val = 16 := by decide

theorem witness_CallThenRetComesBack : (State.reset.setStack State.reset.stack 15).sp.val < 16 := by decide

theorem witness_SysAdvancesOrFaults : State.reset.params.sysMode = .nop ∧
    (withParams State.reset otherParams).params.sysMode = .fault := by decide

theorem witness_JpV0AddsOffset : State.reset.params.jumpOffsetReg = .v0 ∧
    (withParams State.reset otherParams).params.jumpOffsetReg = .vx ∧ (15 : Reg).val = (0xF02 : Addr12).toNat / 256 := by decide

/-- x other than F and x = F. -/
theorem witness_AddRegSetsCarry : (14 : Reg) ≠ vf ∧ (15 : Reg) = vf := by decide

theorem witness_SubAndSubnSetNotBorrow : (0 : Reg) ≠ vf ∧ (15 : Reg) = vf := by decide

theorem witness_ShiftsMoveOneBitToVf : ((withRegs [(4, 5)]).params.shiftSource = .vx ∧ 5 = (withRegs [(4, 5)]).readV 4) ∧
    ((withParams (withRegs [(7, 0xF0)]) otherParams).params.shiftSource = .vy ∧
      0xF0 = (withParams (withRegs [(7, 0xF0)]) otherParams).readV 7) := by decide

/-- A flag writer and an instruction with VF as its destination, each changing VF. -/
theorem witness_OnlyFlagWritersTouchVf :
    (goesOn (exec (.addReg 1 2) (withRegs [(1, 250), (2, 10)]))).map (fun t => t.readV vf != (withRegs [(1, 250), (2, 10)]).readV vf) =
      some true ∧
    (goesOn (exec (.ldByte vf 7) State.reset)).map (fun t => t.readV vf != State.reset.readV vf) = some true := by decide

/-- The last legal base, and beyond it under Wrap12. -/
theorem witness_LdBStoresDigits : (State.reset.setI 0xFFD).InRange (State.reset.setI 0xFFD).I.toNat 3 ∧
    (withParams (State.reset.setI 0xFFE) otherParams).InRange 0xFFE 3 := ⟨.inr (.inr (by decide)), .inl rfl⟩

theorem witness_StoreRegsStoresV0ToVx : (State.reset.setI 0xFF0).InRange (State.reset.setI 0xFF0).I.toNat ((15 : Reg).val + 1) ∧
    State.reset.params.loadStoreIMode = .unchanged ∧ (withParams State.reset otherParams).params.loadStoreIMode = .increment :=
  ⟨.inr (.inr (by decide)), rfl, rfl⟩

theorem witness_LoadRegsLoadsV0ToVx : (State.reset.setI 0xFFF).InRange (State.reset.setI 0xFFF).I.toNat ((0 : Reg).val + 1) ∧
    State.reset.params.loadStoreIMode = .unchanged ∧ (withParams State.reset otherParams).params.loadStoreIMode = .increment :=
  ⟨.inr (.inr (by decide)), rfl, rfl⟩

/-- Each of the four instructions one address too far. -/
theorem witness_AccessAboveMemoryFaults : State.reset.params.addrPolicy = .fault ∧
    0xFFF < (State.reset.setI 0xFFE).I.toNat + 3 - 1 ∧
    0xFFF < (State.reset.setI 0xFF1).I.toNat + ((15 : Reg).val + 1) - 1 ∧
    0xFFF < (State.reset.setI 0x1000).I.toNat + ((0 : Reg).val + 1) - 1 ∧
    (0xFFF < (State.reset.setI 0xFFF).I.toNat + (2 : Nibble).toNat - 1 ∧ 0 < (2 : Nibble).toNat) := by decide

theorem witness_WriteThenReadMemory : (State.reset.InRange 0xFFF 1 ∧ State.reset.params.addrPolicy = .fault) ∧ (withParams State.reset otherParams).InRange 0x1005 1 ∧
    (withParams State.reset otherParams).params.addrPolicy = .wrap12 ∧
    ((withParams State.reset otherParams).writeByte 0x1005 7).readByte 0x005 = 7 :=
  ⟨⟨.inr (.inr (by decide)), rfl⟩, .inl rfl, rfl, by decide⟩

theorem witness_CanonicalMemoriesReadingAlikeAreEqual :
    Memory.wf (Memory.write (Memory.write [] 0x300 1) 0x200 2) = true ∧ Memory.wf [(0x200, 2), (0x300, 1)] = true ∧
    (∀ a, (Memory.write (Memory.write [] 0x300 1) 0x200 2).read a = Memory.read [(0x200, 2), (0x300, 1)] a) :=
  ⟨by decide, by decide, fun _ => rfl⟩

/-- A covered lit pixel, a covered unlit one and an uncovered one, with the sprite at the last address. -/
theorem witness_DrwInvertsCoveredPixels : (withBytes 0xFFF [0x80] []).InRange (withBytes 0xFFF [0x80] []).I.toNat (1 : Nibble).toNat ∧
    (withBytes 0xFFF [0x80] []).SpriteCovers 0 1 1 0 0 ∧ ¬ (withBytes 0xFFF [0x80] []).SpriteCovers 0 1 1 63 0 ∧
    ({ withBytes 0xFFF [0x80] [] with fb := State.reset.fb.invert 0 0 } : State).fb.pixel 0 0 = 1 :=
  ⟨.inr (.inr (by decide)), ⟨0, 0, by decide, by decide, by decide, by decide, by decide⟩,
    fun ⟨_, j, _, hj, hc, _⟩ => by
      have h0 : ((withBytes 0xFFF [0x80] []).readV 0).toNat % 64 = 0 := by decide
      rw [h0] at hc
      have hc' : (63 : Nat) = (0 + j) % 64 := hc
      omega,
    by decide⟩

theorem witness_DrawTwiceErases : (0 : Reg) ≠ vf ∧ (14 : Reg) ≠ vf ∧
    (withBytes 0x300 [0x80] []).InRange (withBytes 0x300 [0x80] []).I.toNat (1 : Nibble).toNat ∧
    (withBytes 0x300 [0x80] []).SpriteCovers 0 14 1 0 0 ∧ (withBytes 0x300 [0x80] []).fb.pixel 0 0 = 0 :=
  ⟨by decide, by decide, .inr (.inr (by decide)), ⟨0, 0, by decide, by decide, by decide, by decide, by decide⟩, by decide⟩

/-- The last key there is, and a masked one. -/
theorem witness_SkpAndSknpTestTheKey : ((withRegs [(2, 15)]).readV 2).toNat ≤ 15 ∧
    (15 : Reg).val = ((withRegs [(2, 15)]).readV 2).toNat % 16 ∧
    (withParams (withRegs [(2, 0x15)]) otherParams).params.keyIndexPolicy = .maskLow4 ∧
    (5 : Reg).val = ((withParams (withRegs [(2, 0x15)]) otherParams).readV 2).toNat % 16 := by decide

theorem witness_KeyIndexAbove15Faults : (withRegs [(2, 16)]).params.keyIndexPolicy = .fault ∧
    15 < ((withRegs [(2, 16)]).readV 2).toNat := by decide

theorem witness_KeyWaitPollsOrTakesADownKey : (∀ k : Reg, State.reset.keys[k.val] = 0) ∧
    (∃ k : Reg, (withKeys State.reset [15]).keys[k.val] ≠ 0) := by decide

/-- An instruction that completes and one that raises. -/
theorem witness_RaisingInstructionWritesNothingElse :
    exec (.sys 0) State.reset = .next State.reset.advance ∧
    exec (.sys 0) (withParams State.reset otherParams) = .next ((withParams State.reset otherParams).raise (.sysFault 0)) :=
  ⟨rfl, rfl⟩

/-- A pc moved by 2, by 4, by a jump, not at all by a key wait, and not at all by a fault. -/
theorem witness_HandlersSetPc : exec (.sys 0) State.reset = .next State.reset.advance ∧
    exec (.seByte 0 0) State.reset = .next State.reset.skipNext ∧ exec (.jp 0x234) State.reset = .next (State.reset.setPc 0x234) ∧
    exec (.ldVxK 0) State.reset = .next State.reset ∧
    exec (.sys 0) (withParams State.reset otherParams) = .next ((withParams State.reset otherParams).raise (.sysFault 0)) :=
  ⟨rfl, rfl, rfl, rfl, rfl⟩

/-- An instruction for each part that changes. -/
theorem witness_PartsChangeOnlyByTheirWriters :
    (goesOn (exec (.ldI 1) State.reset)).map (·.I != State.reset.I) = some true ∧
    (goesOn (exec (.call 1) State.reset)).map (fun t => decide (t.stack ≠ State.reset.stack) && t.sp != State.reset.sp) = some true ∧
    (goesOn (exec (.ldDtVx 1) (withRegs [(1, 9)]))).map (·.DT != 0) = some true ∧
    (goesOn (exec (.ldStVx 1) (withRegs [(1, 9)]))).map (·.ST != 0) = some true ∧
    (goesOn (exec (.ldB 1) ((withRegs [(1, 9)]).setI 0x300))).map (fun t => decide (t.mem ≠ [])) = some true ∧
    (goesOn (exec .cls State.reset)).map (·.dirty != 0) = some true ∧
    (goesOn (exec .ret State.reset)).map (fun t => decide (t.log ≠ [])) = some true := by decide

theorem witness_NoInstructionWritesKeysOrEngine : exec (.ldVxK 0) State.reset = .next State.reset := rfl

/-- An action to take, none to take, and a host call in progress. -/
theorem witness_StepTakesQueuedHostAction : State.reset.call = none ∧
    (State.reset.setInputs [.readFrame, .hostCall 16]).inputs = .readFrame :: [.hostCall 16] ∧
    (State.reset.inputs = [] ∧ ∀ f, State.reset.status ≠ .halted f) ∧
    (inCall State.reset).call = some { cpu := 1, tmr := 0, timersFirst := false } ∧
    step (inCall State.reset) = .next State.reset.advance :=
  ⟨rfl, rfl, ⟨rfl, fun _ h => by cases h⟩, rfl, rfl⟩

/-- The three block orders. -/
theorem witness_HostCallRunsBothBlocks : (looping (clocked 400)).status = .running ∧
    (looping (clocked 400)).params.cpuClockHz = some 400 ∧ (looping (clocked 400)).params.timerBlockOrder = .cpuFirst ∧
    (looping { clocked 400 with timerBlockOrder := .timerFirst }).params.timerBlockOrder = .timerFirst ∧
    (looping { clocked 400 with timerBlockOrder := .either }).params.timerBlockOrder = .either := by decide

/-- A cycle that goes on, a halted machine, and a host call with cycles of both kinds left. -/
theorem witness_BlocksRunTheirCycles : State.reset.status = .running ∧ cycle State.reset = .next State.reset.advance ∧
    State.reset.advance.status = .running ∧ runCpu 1 State.reset = .next State.reset.advance ∧
    (State.reset.raise .romReadFailure).status ≠ .running ∧
    runCpu 1 (State.reset.raise .romReadFailure) = .next (State.reset.raise .romReadFailure) ∧
    (State.reset.setCall (some { cpu := 2, tmr := 1, timersFirst := true })).call =
      some { cpu := 2, tmr := 1, timersFirst := true } ∧ 0 < 2 + 1 :=
  ⟨rfl, rfl, rfl, rfl, by decide, rfl, rfl, by decide⟩

theorem witness_HostCallKeepsRemainders : (looping (clocked 1)).status = .running ∧
    (looping (clocked 1)).params.cpuClockHz = some 1 := by decide

theorem witness_LongRunCountsAreExact : (looping (clocked 400)).params.cpuClockHz = some 400 ∧
    (looping (clocked 400)).accCpu = 0 ∧ (looping (clocked 400)).accTmr = 0 ∧ (looping (clocked 400)).call = none ∧
    (goesOn (runCalls [13, 13] (looping (clocked 400)))).map (·.status) = some .running := by decide

theorem witness_HostCallNeedsItsClock : State.reset.status = .running ∧ State.reset.params.cpuClockHz = none := by decide

theorem witness_KeyWriteAndFrameRead : State.reset.status ≠ .unloaded := by decide

/-- A ROM of no bytes and one that fills memory. -/
theorem witness_LoadResetsAndCopiesRom : ([] : List Byte).length ≤ 3584 ∧ (List.replicate 3584 (0x12 : Byte)).length ≤ 3584 := by
  simp only [List.length_replicate]
  decide

theorem witness_FailedLoadHalts : 3584 < (List.replicate 3585 (0x12 : Byte)).length := by
  simp only [List.length_replicate]
  decide

/-- A cycle of a host call in progress. -/
theorem witness_EveryStepKeepsInv : (inCall State.reset).Inv ∧ step (inCall State.reset) = .next State.reset.advance :=
  ⟨⟨rfl, by decide, by decide, fun _ h => ⟨rfl, by cases h; decide⟩⟩, rfl⟩

theorem witness_EveryStepKeepsParams : step (inCall State.reset) = .next State.reset.advance := rfl

end Sys2Proof.Tests
end

section
/-! SUPPORT. Obligations of spec/00_scope.md: what an instruction can do to the engine around it (R11), where an access raises
AddressFault (R57), and what a step can do to the named parameters (R7). -/

namespace Sys2Proof.Machine

/-! ### The engine around the program -/

/-- The elements of the state that no completing instruction writes: the key state (R36), the accumulators (R37), the status
(R38), the host call in progress, the named parameters (R7) and the queued host actions. -/
structure Engine where
  keys   : Vector Byte 16
  accCpu : Nat
  accTmr : Nat
  status : Status
  call   : Option Call
  params : Config.Params
  inputs : List HostAction

/-- The engine's part of the state. -/
def State.engine (s : State) : Engine := ⟨s.keys, s.accCpu, s.accTmr, s.status, s.call, s.params, s.inputs⟩

theorem State.engine_eq_iff {s t : State} : t.engine = s.engine ↔
    t.keys = s.keys ∧ t.accCpu = s.accCpu ∧ t.accTmr = s.accTmr ∧ t.status = s.status ∧ t.call = s.call ∧
      t.params = s.params ∧ t.inputs = s.inputs := by
  simp [State.engine]

@[simp] theorem State.writeV_engine (s : State) (x : Reg) (v : Byte) : (s.writeV x v).engine = s.engine := rfl
@[simp] theorem State.setV_engine (s : State) (v : Vector Byte 16) : (s.setV v).engine = s.engine := rfl
@[simp] theorem State.setI_engine (s : State) (v : Word) : (s.setI v).engine = s.engine := rfl
@[simp] theorem State.setPc_engine (s : State) (v : Word) : (s.setPc v).engine = s.engine := rfl
@[simp] theorem State.setStack_engine (s : State) (w : Vector Word 16) (p : Fin 17) :
    (s.setStack w p).engine = s.engine := rfl
@[simp] theorem State.setDT_engine (s : State) (v : Byte) : (s.setDT v).engine = s.engine := rfl
@[simp] theorem State.setST_engine (s : State) (v : Byte) : (s.setST v).engine = s.engine := rfl
@[simp] theorem State.setMem_engine (s : State) (m : Memory) : (s.setMem m).engine = s.engine := rfl
@[simp] theorem State.setFb_engine (s : State) (fb : FrameBuffer) : (s.setFb fb).engine = s.engine := rfl
@[simp] theorem State.setDirty_engine (s : State) (v : Bit) : (s.setDirty v).engine = s.engine := rfl
@[simp] theorem State.logEvent_engine (s : State) (e : Event) : (s.logEvent e).engine = s.engine := rfl
@[simp] theorem State.drawn_engine (s : State) : s.drawn.engine = s.engine := rfl
@[simp] theorem State.writeWithFlag_engine (s : State) (x : Reg) (v : Byte) (b : Bool) :
    (s.writeWithFlag x v b).engine = s.engine := rfl
@[simp] theorem State.writeBytes_engine (s : State) (e : Nat) (bs : List Byte) :
    (s.writeBytes e bs).engine = s.engine := by
  obtain ⟨m, hm, -⟩ := s.writeBytes_eq e bs
  rw [hm, State.setMem_engine]

/-! ### What an instruction can do -/

/-- An answer that completes with the engine as it was, or raises and writes nothing else (R11). -/
def State.CompletesOrRaises (s : State) (r : StepResult) : Prop :=
  (∃ t, r = .next t ∧ t.engine = s.engine) ∨ ∃ f, r = .next (s.raise f)

theorem State.completesOrRaises_next {s t : State} (h : t.engine = s.engine) : s.CompletesOrRaises (.next t) :=
  .inl ⟨t, rfl, h⟩

theorem State.completesOrRaises_raise (s : State) (f : Fault) : s.CompletesOrRaises (.next (s.raise f)) :=
  .inr ⟨f, rfl⟩

/-- An answer that goes on does so to a state with the same engine, or to the raise. -/
theorem State.CompletesOrRaises.cases {s t : State} {r : StepResult} (h : s.CompletesOrRaises r) (hr : r = .next t) :
    t.engine = s.engine ∨ ∃ f, t = s.raise f := by
  subst hr
  obtain ⟨u, hu, he⟩ | ⟨f, hf⟩ := h
  · cases hu; exact .inl he
  · cases hf; exact .inr ⟨f, rfl⟩

/-- The check of R57 keeps what it completes as, or raises. -/
theorem State.checkRange_completesOrRaises {s done : State} (base n : Nat) (h : done.engine = s.engine) :
    s.CompletesOrRaises (s.checkRange base n done) := by
  obtain ⟨-, -, -, e⟩ | ⟨-, e⟩ := s.checkRange_cases base n done <;> rw [e]
  · exact s.completesOrRaises_raise _
  · exact State.completesOrRaises_next h

theorem execRet_completesOrRaises (s : State) : s.CompletesOrRaises (execRet s) := by
  by_cases h : s.sp.val = 0
  · rw [execRet, State.pop_of_zero h]
    exact State.completesOrRaises_next (by simp)
  · rw [execRet, State.pop_of_pos (by omega)]
    exact State.completesOrRaises_next (by simp)

theorem execSys_completesOrRaises (addr : Addr12) (s : State) : s.CompletesOrRaises (execSys addr s) := by
  unfold execSys
  split
  · exact State.completesOrRaises_next (by simp)
  · exact s.completesOrRaises_raise _

theorem execCall_completesOrRaises (addr : Addr12) (s : State) : s.CompletesOrRaises (execCall addr s) := by
  by_cases h : s.sp.val < Config.stackDepth
  · rw [execCall, State.push_of_lt _ h]
    exact State.completesOrRaises_next (by simp)
  · rw [execCall, State.push_of_full _ h]
    exact State.completesOrRaises_next (by simp)

/-- SKP and SKNP raise where V[x] names no key (R173), and complete where it does. -/
theorem execSkp_execSknp_completesOrRaises (x : Reg) (s : State) :
    s.CompletesOrRaises (execSkp x s) ∧ s.CompletesOrRaises (execSknp x s) := by
  unfold execSkp execSknp
  cases keyIndex s.params.keyIndexPolicy (s.readV x) with
  | none => exact ⟨s.completesOrRaises_raise _, s.completesOrRaises_raise _⟩
  | some k => exact ⟨State.completesOrRaises_next (by simp), State.completesOrRaises_next (by simp)⟩

theorem execLdVxK_completesOrRaises (x : Reg) (s : State) : s.CompletesOrRaises (execLdVxK x s) := by
  unfold execLdVxK
  split
  · exact State.completesOrRaises_next rfl
  · exact State.completesOrRaises_next (by simp)

/-- Every instruction completes with the engine as it was, or raises and writes nothing else (R11): those that raise do so by
the range check (R57), the key index (R173) or SYS_MODE (R112); the rest complete in every state. -/
theorem exec_completesOrRaises (i : Instr) (s : State) : s.CompletesOrRaises (exec i s) := by
  cases i with
  | ret => exact execRet_completesOrRaises s
  | sys addr => exact execSys_completesOrRaises addr s
  | call addr => exact execCall_completesOrRaises addr s
  | skp x => exact (execSkp_execSknp_completesOrRaises x s).1
  | sknp x => exact (execSkp_execSknp_completesOrRaises x s).2
  | ldVxK x => exact execLdVxK_completesOrRaises x s
  | drw x y nibble => exact State.checkRange_completesOrRaises _ _ (by simp)
  | ldB x => exact State.checkRange_completesOrRaises _ _ (by simp)
  | storeRegs x => exact State.checkRange_completesOrRaises _ _ (by simp)
  | loadRegs x => exact State.checkRange_completesOrRaises _ _ (by simp)
  | _ => exact State.completesOrRaises_next (by simp)

/-- Settles O44: an answer of `exec` completes with the engine as it was, the status and the host call with it, or is the
raise (R11). -/
theorem raisingInstructionWritesNothingElse : Obligations.RaisingInstructionWritesNothingElse := by
  intro i s t h
  refine ((exec_completesOrRaises i s).cases h).imp_left fun he => ?_
  obtain ⟨-, -, -, hstatus, hcall, -, -⟩ := State.engine_eq_iff.mp he
  exact ⟨hstatus, hcall⟩

/-! ### Accesses above memory -/

/-- An access that reaches above 0xFFF under ADDR_POLICY = Fault fails the check of R57, whatever it would complete as. -/
theorem State.checkRange_of_above {s : State} {base n : Nat} (done : State) (hp : s.params.addrPolicy = .fault) (hn : 0 < n)
    (h : Config.memSize < base + n) :
    s.checkRange base n done = .next (s.raise (.addressFault (max base Config.memSize))) := by
  have hf : rangeFault s.params.addrPolicy base n = some (.addressFault (max base Config.memSize)) :=
    rangeFault_eq_some.mpr ⟨hp, by omega, h, rfl⟩
  simp only [State.checkRange, hf]

/-- Settles O32: each of the four instructions is a range check on its own addresses from I, and the check raises with the lowest
address above 0xFFF, `max I 0x1000` (R57). -/
theorem accessAboveMemoryFaults : Obligations.AccessAboveMemoryFaults := by
  intro s i n hp hi habove
  obtain ⟨hn, done, hexec⟩ : 0 < n ∧ ∃ done, exec i s = s.checkRange s.I.toNat n done := by
    obtain ⟨x, rfl, rfl⟩ | ⟨x, rfl, rfl⟩ | ⟨x, rfl, rfl⟩ | ⟨x, y, m, rfl, rfl, hpos⟩ := hi
    · exact ⟨by omega, _, rfl⟩
    · exact ⟨by omega, _, rfl⟩
    · exact ⟨by omega, _, rfl⟩
    · exact ⟨hpos, _, rfl⟩
  have hreach : Config.memSize < s.I.toNat + n := by simp only [Config.memSize]; omega
  refine ⟨max s.I.toNat Config.memSize, hexec.trans (State.checkRange_of_above done hp hn hreach), ?_⟩
  simp only [Config.memSize] at hreach ⊢
  exact ⟨by omega, by omega, by omega, fun b _ _ => by omega⟩

/-! ### The host's moves and the parameters -/

/-- A CPU cycle completes with the engine as it was or raises, in the fetch, the decode or the instruction (R100). -/
theorem cycle_completesOrRaises (s : State) : s.CompletesOrRaises (cycle s) := by
  unfold cycle
  split
  · exact s.completesOrRaises_raise _
  · split
    · exact s.completesOrRaises_raise _
    · exact exec_completesOrRaises _ s

theorem cycle_params {s t : State} (h : cycle s = .next t) : t.params = s.params := by
  obtain he | ⟨f, rfl⟩ := (cycle_completesOrRaises s).cases h
  · exact congrArg Engine.params he
  · simp

/-- What a host call that is not refused does (R204, R230): nothing on a halted machine, else it starts at the clock supplied. -/
theorem hostCall_cases {ms : Nat} {s t : State} (h : hostCall ms s = .next t) :
    (∃ f, s.status = .halted f ∧ t = s) ∨
    (∃ hz, s.status = .running ∧ s.params.cpuClockHz = some hz ∧ t = startCall hz ms s) := by
  unfold hostCall at h
  split at h
  · cases h
  · next f hs => cases h; exact .inl ⟨f, hs, rfl⟩
  · next hs =>
    split at h
    · cases h
    · next hz hc => cases h; exact .inr ⟨hz, hs, hc, rfl⟩

/-- What a ROM load does (R252 to R254): it fails with one of the two load faults, or loads the ROM. -/
theorem loadRom_cases {source : Option (List Byte)} {s t : State} (h : loadRom source s = .next t) :
    (∃ f, t = s.failedLoad f) ∨ ∃ rom, source = some rom ∧ t = s.loadedWith rom := by
  unfold loadRom at h
  split at h
  · cases h; exact .inl ⟨_, rfl⟩
  · split at h
    · cases h; exact .inl ⟨_, rfl⟩
    · cases h; exact .inr ⟨_, rfl, rfl⟩

theorem hostAction_params {a : HostAction} {s t : State} (h : hostAction a s = .next t) : t.params = s.params := by
  cases a with
  | loadRom source =>
    obtain ⟨f, rfl⟩ | ⟨rom, -, rfl⟩ := loadRom_cases h
    · exact s.failedLoad_params f
    · exact s.loadedWith_params rom
  | writeKeys keys =>
    simp only [hostAction] at h
    split at h <;> cases h
    exact s.setKeys_params keys
  | readFrame =>
    simp only [hostAction] at h
    split at h <;> cases h
    exact s.setDirty_params 0
  | hostCall ms =>
    obtain ⟨f, -, rfl⟩ | ⟨hz, -, -, rfl⟩ := hostCall_cases h
    · rfl
    · exact startCall_params hz ms s

/-- Settles O60: by cases on what a step can be, each of which keeps the parameters. -/
theorem everyStepKeepsParams : Obligations.EveryStepKeepsParams := by
  intro s t h
  obtain ⟨-, -, -, rfl⟩ | ⟨a, rest, -, -, ha⟩ | ⟨c, -, -, ⟨-, hc⟩ | ⟨-, rfl⟩ | ⟨-, rfl⟩⟩ := step_cases h
  · rfl
  · rw [hostAction_params ha, State.setInputs_params]
  · rw [cycle_params hc, State.setCall_params]
  · simp
  · simp

/-- Settles O53: a running engine's host call looks for its clock first, and there is none (R7). -/
theorem hostCallNeedsItsClock : Obligations.HostCallNeedsItsClock := by
  intro s ms hrun hclock
  simp only [hostCall, hrun, hclock]

end Sys2Proof.Machine
end

section
/-! SUPPORT. What an instruction writes: every form the next state of an instruction with more than one outcome can have, the
elements beside `pc` and the registers that each instruction leaves (R25 to R35, R50), and the registers each may write (R20). -/

namespace Sys2Proof.Machine

/-! ### The instructions with more than one outcome -/

/-- The check of R57 goes on to the state it completes as, or to the raise. -/
theorem State.checkRange_eq_next {s t done : State} {base n : Nat} (h : s.checkRange base n done = .next t) :
    t = done ∨ ∃ f, t = s.raise f := by
  obtain ⟨-, -, -, e⟩ | ⟨-, e⟩ := s.checkRange_cases base n done <;> rw [e] at h <;> cases h
  · exact .inr ⟨_, rfl⟩
  · exact .inl rfl

/-- RET logs an underflow, or lowers the pointer and jumps (R111). -/
theorem execRet_eq_next {s t : State} (h : execRet s = .next t) :
    (∃ e, t = s.recover e) ∨ ∃ sp pc, t = (s.setStack s.stack sp).setPc pc := by
  by_cases hsp : s.sp.val = 0
  · rw [execRet, State.pop_of_zero hsp] at h
    cases h; exact .inl ⟨_, rfl⟩
  · rw [execRet, State.pop_of_pos (by omega)] at h
    cases h; exact .inr ⟨_, _, rfl⟩

/-- CALL logs an overflow, or pushes and jumps (R114). -/
theorem execCall_eq_next {addr : Addr12} {s t : State} (h : execCall addr s = .next t) :
    (∃ e, t = s.recover e) ∨ ∃ slots sp pc, t = (s.setStack slots sp).setPc pc := by
  by_cases hsp : s.sp.val < Config.stackDepth
  · rw [execCall, State.push_of_lt _ hsp] at h
    cases h; exact .inr ⟨_, _, _, rfl⟩
  · rw [execCall, State.push_of_full _ hsp] at h
    cases h; exact .inl ⟨_, rfl⟩

/-- The instructions that write nothing but `pc`: SYS (R112), the jumps (R113, R119) and the skips (R115 to R118, R170, R171). -/
def Instr.movesPcOnly : Instr → Bool
  | .sys _ | .jp _ | .jpV0 _ | .skp _ | .sknp _ => true
  | .seByte _ _ | .sneByte _ _ | .seReg _ _ | .sneReg _ _ => true
  | _ => false

/-- These set `pc`, or raise: SYS under SYS_MODE = Fault (R112), SKP and SKNP where V[x] names no key (R173). -/
theorem exec_eq_setPc_or_raise {i : Instr} {s t : State} (hi : Instr.movesPcOnly i = true) (h : exec i s = .next t) :
    (∃ pc, t = s.setPc pc) ∨ ∃ f, t = s.raise f := by
  cases i with
  | sys addr =>
    simp only [exec, execSys] at h
    split at h <;> cases h
    · exact .inl ⟨_, rfl⟩
    · exact .inr ⟨_, rfl⟩
  | skp x | sknp x =>
    simp only [exec, execSkp, execSknp] at h
    split at h <;> cases h
    · exact .inr ⟨_, rfl⟩
    · exact .inl ⟨_, s.skipIf_eq _⟩
  | jp addr | jpV0 addr => cases h; exact .inl ⟨_, rfl⟩
  | seByte x kk | sneByte x kk => cases h; exact .inl ⟨_, s.skipIf_eq _⟩
  | seReg x y | sneReg x y => cases h; exact .inl ⟨_, s.skipIf_eq _⟩
  | _ => cases hi

/-- `LD Vx, K` waits, or writes V[x] and goes on (R172). -/
theorem execLdVxK_eq_next {x : Reg} {s t : State} (h : execLdVxK x s = .next t) :
    t = s ∨ ∃ v, t = (s.writeV x v).drawn.advance := by
  unfold execLdVxK at h
  split at h <;> cases h
  · exact .inl rfl
  · exact .inr ⟨_, rfl⟩

/-- I moves past the bytes accessed only under LOADSTORE_I_MODE = Increment (R154, R155). -/
theorem State.increment_of_indexAfter_ne {s : State} {x : Reg} (h : s.indexAfter x ≠ s.I) :
    s.params.loadStoreIMode = .increment := by
  cases hm : s.params.loadStoreIMode with
  | increment => rfl
  | unchanged => exact absurd (by simp [State.indexAfter, hm]) h

/-! ### The elements beside `pc` and the registers -/

/-- The elements of the state that only some instructions write: I, the stack, the timers, memory, the frame buffer, the dirty
flag and the log. -/
structure Parts where
  I     : Word
  stack : Vector Word 16
  sp    : Fin 17
  DT    : Byte
  ST    : Byte
  mem   : Memory
  fb    : FrameBuffer
  dirty : Bit
  log   : List Event

/-- These elements of the state. -/
def State.parts (s : State) : Parts := ⟨s.I, s.stack, s.sp, s.DT, s.ST, s.mem, s.fb, s.dirty, s.log⟩

/-- What instruction `i` can leave in these elements: them all as they were, or a change to those it writes (R25 to R27, R30, R31,
R34, R35, R50). Memory that changes keeps its canonical form. -/
inductive State.LeavesParts (s : State) : Instr → Parts → Prop where
  | kept (i : Instr) : s.LeavesParts i s.parts
  | cls (fb : FrameBuffer) (d : Bit) : s.LeavesParts .cls { s.parts with fb := fb, dirty := d }
  | drw (x y : Reg) (n : Nibble) (fb : FrameBuffer) (d : Bit) :
      s.LeavesParts (.drw x y n) { s.parts with fb := fb, dirty := d }
  | ret (sp : Fin 17) : s.LeavesParts .ret { s.parts with sp := sp }
  | underflow (l : List Event) : s.LeavesParts .ret { s.parts with log := l }
  | call (addr : Addr12) (slots : Vector Word 16) (sp : Fin 17) :
      s.LeavesParts (.call addr) { s.parts with stack := slots, sp := sp }
  | overflow (addr : Addr12) (l : List Event) : s.LeavesParts (.call addr) { s.parts with log := l }
  | ldI (addr : Addr12) (v : Word) : s.LeavesParts (.ldI addr) { s.parts with I := v }
  | addI (x : Reg) (v : Word) : s.LeavesParts (.addI x) { s.parts with I := v }
  | ldF (x : Reg) (v : Word) : s.LeavesParts (.ldF x) { s.parts with I := v }
  | ldDtVx (x : Reg) (v : Byte) : s.LeavesParts (.ldDtVx x) { s.parts with DT := v }
  | ldStVx (x : Reg) (v : Byte) : s.LeavesParts (.ldStVx x) { s.parts with ST := v }
  | ldB (x : Reg) (m : Memory) (hm : s.mem.wf = true → m.wf = true) :
      s.LeavesParts (.ldB x) { s.parts with mem := m }
  | storeRegs (x : Reg) (m : Memory) (hm : s.mem.wf = true → m.wf = true) :
      s.LeavesParts (.storeRegs x) { s.parts with I := s.indexAfter x, mem := m }
  | loadRegs (x : Reg) : s.LeavesParts (.loadRegs x) { s.parts with I := s.indexAfter x }

/-- Each instruction leaves in these elements only what `LeavesParts` allows it. -/
theorem exec_leavesParts {i : Instr} {s t : State} (h : exec i s = .next t) : s.LeavesParts i t.parts := by
  cases i with
  | cls => cases h; exact .cls _ _
  | ret =>
    obtain ⟨e, rfl⟩ | ⟨sp, pc, rfl⟩ := execRet_eq_next h
    · exact .underflow _
    · exact .ret _
  | call addr =>
    obtain ⟨e, rfl⟩ | ⟨slots, sp, pc, rfl⟩ := execCall_eq_next h
    · exact .overflow _ _
    · exact .call _ _ _
  | ldVxK x =>
    obtain rfl | ⟨v, rfl⟩ := execLdVxK_eq_next h
    · exact .kept _
    · exact .kept _
  | drw x y n =>
    obtain rfl | ⟨f, rfl⟩ := State.checkRange_eq_next h
    · exact .drw _ _ _ _ _
    · exact .kept _
  | ldB x =>
    obtain ⟨m, hm, hwf⟩ := s.writeBytes_eq s.I.toNat (bcdDigits (s.readV x))
    obtain rfl | ⟨f, rfl⟩ := State.checkRange_eq_next h
    · rw [hm]; exact .ldB _ m hwf
    · exact .kept _
  | storeRegs x =>
    obtain ⟨m, hm, hwf⟩ := s.writeBytes_eq s.I.toNat (s.firstRegs x)
    obtain rfl | ⟨f, rfl⟩ := State.checkRange_eq_next h
    · rw [hm]; exact .storeRegs _ m hwf
    · exact .kept _
  | loadRegs x =>
    obtain rfl | ⟨f, rfl⟩ := State.checkRange_eq_next h
    · exact .loadRegs x
    · exact .kept _
  | ldI addr => cases h; exact .ldI _ _
  | addI x => cases h; exact .addI _ _
  | ldF x => cases h; exact .ldF _ _
  | ldDtVx x => cases h; exact .ldDtVx _ _
  | ldStVx x => cases h; exact .ldStVx _ _
  | sys _ | jp _ | jpV0 _ | skp _ | sknp _ | seByte _ _ | sneByte _ _ | seReg _ _ | sneReg _ _ =>
    obtain ⟨pc, rfl⟩ | ⟨f, rfl⟩ := exec_eq_setPc_or_raise rfl h
    · exact .kept _
    · exact .kept _
  | _ => cases h; exact .kept _

/-- Memory stays canonical whatever instruction ran (R50). -/
theorem State.LeavesParts.wf {s : State} {i : Instr} {p : Parts} (h : s.LeavesParts i p) (hs : s.mem.wf = true) :
    p.mem.wf = true := by
  cases h with
  | ldB x m hm | storeRegs x m hm => exact hm hs
  | _ => exact hs

/-! ### The registers -/

/-- The registers an instruction may write: its destination, VF beside it for a flag writer, VF alone for DRW (R21), and V[0] to
V[x] for `LD Vx, [I]` (R155). -/
def Instr.WritesReg (r : Reg) : Instr → Prop
  | .ldByte x _ | .addByte x _ | .rnd x _ | .ldVxDt x | .ldVxK x => r = x
  | .ldReg x _ | .orReg x _ | .andReg x _ | .xorReg x _ => r = x
  | .addReg x _ | .sub x _ | .shr x _ | .subn x _ | .shl x _ => r = x ∨ r = vf
  | .drw _ _ _ => r = vf
  | .loadRegs x => r ≤ x
  | _ => False

theorem State.writeWithFlag_readV_of_ne (s : State) {x r : Reg} (v : Byte) (b : Bool) (h : ¬ (r = x ∨ r = vf)) :
    (s.writeWithFlag x v b).readV r = s.readV r := by
  obtain ⟨hx, hf⟩ := not_or.mp h
  rw [State.writeWithFlag_readV, if_neg hf, if_neg hx]

theorem State.setV_loadedRegs_readV_of_not_le (s : State) {x r : Reg} (e : Nat) (h : ¬ r ≤ x) :
    (s.setV (s.loadedRegs e x)).readV r = s.readV r := by
  rw [State.readV, State.setV_V, State.loadedRegs_getElem, if_neg (by simpa using h)]

/-- An instruction leaves every register it does not write as it was. -/
theorem exec_readV_of_not_writesReg {i : Instr} {s t : State} {r : Reg} (h : exec i s = .next t)
    (hr : ¬ Instr.WritesReg r i) : t.readV r = s.readV r := by
  cases i with
  | ret =>
    obtain ⟨e, rfl⟩ | ⟨sp, pc, rfl⟩ := execRet_eq_next h <;> rfl
  | call addr =>
    obtain ⟨e, rfl⟩ | ⟨slots, sp, pc, rfl⟩ := execCall_eq_next h <;> rfl
  | ldVxK x =>
    obtain rfl | ⟨v, rfl⟩ := execLdVxK_eq_next h
    · rfl
    · exact s.readV_writeV_of_ne _ hr
  | drw x y n =>
    obtain rfl | ⟨f, rfl⟩ := State.checkRange_eq_next h
    · exact State.readV_writeV_of_ne _ _ hr
    · rfl
  | ldB x =>
    obtain ⟨m, hm, -⟩ := s.writeBytes_eq s.I.toNat (bcdDigits (s.readV x))
    obtain rfl | ⟨f, rfl⟩ := State.checkRange_eq_next h
    · rw [hm]; rfl
    · rfl
  | storeRegs x =>
    obtain ⟨m, hm, -⟩ := s.writeBytes_eq s.I.toNat (s.firstRegs x)
    obtain rfl | ⟨f, rfl⟩ := State.checkRange_eq_next h
    · rw [hm]; rfl
    · rfl
  | loadRegs x =>
    obtain rfl | ⟨f, rfl⟩ := State.checkRange_eq_next h
    · exact s.setV_loadedRegs_readV_of_not_le _ hr
    · rfl
  | sys _ | jp _ | jpV0 _ | skp _ | sknp _ | seByte _ _ | sneByte _ _ | seReg _ _ | sneReg _ _ =>
    obtain ⟨pc, rfl⟩ | ⟨f, rfl⟩ := exec_eq_setPc_or_raise rfl h <;> rfl
  | ldByte x kk | addByte x kk | rnd x kk => cases h; exact s.readV_writeV_of_ne _ hr
  | ldReg x y | orReg x y | andReg x y | xorReg x y => cases h; exact s.readV_writeV_of_ne _ hr
  | ldVxDt x => cases h; exact s.readV_writeV_of_ne _ hr
  | addReg x y | sub x y | shr x y | subn x y | shl x y => cases h; exact s.writeWithFlag_readV_of_ne _ _ hr
  | _ => cases h; rfl

/-- V[0] to V[x] hold VF only for x = F. -/
theorem eq_vf_of_vf_le {x : Reg} (h : vf ≤ x) : x = vf := le_antisymm (Fin.le_last x) h

end Sys2Proof.Machine
end

section
/-! SUPPORT. Obligations of spec/10_state.md: the reset state (R45), the invariant (R32, R37, R208), which instruction changes
which element (R21, R25 to R37), and what a host call keeps (R231). -/

namespace Sys2Proof.Machine

/-! ### The invariant -/

/-- The invariant wherever no host call is in progress. -/
theorem State.inv_of_call_none {s : State} (hm : s.mem.wf = true) (hc : s.accCpu < 1000) (ht : s.accTmr < 1000)
    (h : s.call = none) : s.Inv :=
  ⟨hm, hc, ht, fun c e => by rw [h] at e; cases e⟩

/-- The invariant says nothing of the queue. -/
theorem State.Inv.setInputs {s : State} (h : s.Inv) (q : List HostAction) : (s.setInputs q).Inv := h

/-- A running engine's call may stand at any cycles that are not all run (R226). -/
theorem State.Inv.setCall_orDone {s : State} (h : s.Inv) (hr : s.status = .running) (c : Call) :
    (s.setCall c.orDone).Inv := by
  obtain ⟨hm, hcpu, htmr, -⟩ := h
  refine ⟨hm, hcpu, htmr, fun d hd => ⟨hr, ?_⟩⟩
  obtain ⟨rfl, hpos⟩ := Call.orDone_eq_some.mp hd
  exact hpos

/-- A raise ends the host call and writes neither memory nor accumulator (R208). -/
theorem State.Inv.raise {s : State} (h : s.Inv) (f : Fault) : (s.raise f).Inv := by
  obtain ⟨hm, hcpu, htmr, -⟩ := h
  exact State.inv_of_call_none hm hcpu htmr rfl

/-- The same engine over a canonical memory meets the invariant again. -/
theorem State.Inv.of_engine {s t : State} (h : s.Inv) (he : t.engine = s.engine) (hm : t.mem.wf = true) : t.Inv := by
  obtain ⟨-, hcpu, htmr, hcall⟩ := h
  obtain ⟨-, ecpu, etmr, estatus, ecall, -, -⟩ := State.engine_eq_iff.mp he
  exact ⟨hm, ecpu ▸ hcpu, etmr ▸ htmr, fun c hc => estatus ▸ hcall c (ecall ▸ hc)⟩

theorem exec_inv {i : Instr} {s t : State} (hs : s.Inv) (h : exec i s = .next t) : t.Inv := by
  obtain he | ⟨f, rfl⟩ := (exec_completesOrRaises i s).cases h
  · exact hs.of_engine he ((exec_leavesParts h).wf hs.1)
  · exact hs.raise f

theorem cycle_inv {s t : State} (hs : s.Inv) (h : cycle s = .next t) : t.Inv := by
  unfold cycle at h
  split at h
  · cases h; exact hs.raise _
  · split at h
    · cases h; exact hs.raise _
    · exact exec_inv hs h

/-- A started call keeps the remainders, each below one cycle, and counts a cycle or none is in progress (R231). -/
theorem startCall_inv {s : State} (hs : s.Inv) (hr : s.status = .running) (hz ms : Nat) : (startCall hz ms s).Inv := by
  refine ⟨by rw [startCall_mem]; exact hs.1, fractionLeft_lt _, fractionLeft_lt _, fun c hc => ?_⟩
  obtain ⟨rfl, hpos⟩ := Call.orDone_eq_some.mp hc
  exact ⟨(startCall_status hz ms s).trans hr, hpos⟩

/-- A host action keeps the invariant: a load sets everything anew (R251 to R254), a key write and a frame read touch none of it
(R228, R229), and a host call starts with its remainders. -/
theorem hostAction_inv {a : HostAction} {s t : State} (hs : s.Inv) (h : hostAction a s = .next t) : t.Inv := by
  cases a with
  | loadRom source =>
    obtain ⟨f, rfl⟩ | ⟨rom, -, rfl⟩ := loadRom_cases h
    · exact State.inv_of_call_none (s.failedLoad_wf f) (s.failedLoad_accCpu_lt f) (s.failedLoad_accTmr_lt f)
        (s.failedLoad_call f)
    · exact State.inv_of_call_none (s.loadedWith_wf rom) (by simp) (by simp) (s.loadedWith_call rom)
  | writeKeys keys =>
    simp only [hostAction] at h
    split at h <;> cases h
    exact hs
  | readFrame =>
    simp only [hostAction] at h
    split at h <;> cases h
    exact hs
  | hostCall ms =>
    obtain ⟨f, -, rfl⟩ | ⟨hz, hr, -, rfl⟩ := hostCall_cases h
    · exact hs
    · exact startCall_inv hs hr hz ms

/-- Settles O59: by cases on what a step can be; a cycle begins from the call with one cycle less, which meets the invariant. -/
theorem everyStepKeepsInv : Obligations.EveryStepKeepsInv := by
  intro s t hs h
  obtain ⟨-, -, -, rfl⟩ | ⟨a, rest, -, -, ha⟩ | ⟨c, -, hr, ⟨-, hc⟩ | ⟨-, rfl⟩ | ⟨-, rfl⟩⟩ := step_cases h
  · exact hs
  · exact hostAction_inv (hs.setInputs rest) ha
  · exact cycle_inv (hs.setCall_orDone hr _) hc
  · exact (hs.setCall_orDone hr _ : (s.setCall c.afterTimer).Inv)
  · obtain ⟨hm, hcpu, htmr, -⟩ := hs
    exact State.inv_of_call_none hm hcpu htmr rfl

/-- Settles O58: no cell is listed at reset, the accumulators are 0 and no host call is in progress. -/
theorem resetMeetsInv : Obligations.ResetMeetsInv :=
  State.inv_of_call_none Memory.wf_nil (by decide) (by decide) rfl

/-! ### The reset state -/

/-- The bytes of the font at its place (R33). -/
theorem Memory.unlisted_font {k : Nat} (hk : k < 80) : Memory.unlisted (0x050 + k) = Config.standardFont[k] := by
  have hlen : k < Config.standardFontBytes.length := hk
  rw [Memory.unlisted, if_pos (Nat.le_add_right _ _), Nat.add_sub_cancel_left, List.getD_eq_getElem _ _ hlen]
  rfl

/-- Outside the font an unwritten address reads 0 (R45). -/
theorem Memory.unlisted_of_outside_font {a : Nat} (h : a < 0x050 ∨ 0x09F < a) : Memory.unlisted a = 0 := by
  unfold Memory.unlisted
  split
  · next hle =>
    have hlen : Config.standardFontBytes.length ≤ a - Config.fontBase := by
      change 80 ≤ a - 0x050
      change 0x050 ≤ a at hle
      omega
    exact List.getD_eq_default _ _ hlen
  · rfl

/-- Settles O57: memory lists no cell at reset, so it reads as unlisted; the other elements are the record's own. -/
theorem resetHoldsTheTablesValues : Obligations.ResetHoldsTheTablesValues := by
  refine ⟨rfl, rfl, rfl, rfl, rfl, rfl, rfl, rfl, rfl, rfl, rfl, ?_, ?_, ?_, FrameBuffer.pixel_blank, ?_, ?_⟩
  · intro r; simp [State.readV, State.reset]
  · intro k hk; simp [State.reset]
  · intro k hk; simp [State.reset]
  · intro k hk; exact Memory.unlisted_font hk
  · intro a _ h; exact Memory.unlisted_of_outside_font h

/-! ### Which instruction changes which element -/

/-- Settles O27: VF changes only where it is a register the instruction writes. -/
theorem onlyFlagWritersTouchVf : Obligations.OnlyFlagWritersTouchVf := by
  intro i s t h hne
  have hw : Instr.WritesReg vf i := by
    by_contra hw
    exact hne (exec_readV_of_not_writesReg h hw)
  cases i with
  | addReg x y | sub x y | shr x y | subn x y | shl x y => exact .inl ⟨x, y, by simp⟩
  | drw x y n => exact .inr (.inl ⟨x, y, n, rfl⟩)
  | ldByte x kk | addByte x kk | rnd x kk => cases hw; exact .inr (.inr (.inl ⟨kk, by simp⟩))
  | ldReg x y | orReg x y | andReg x y | xorReg x y => cases hw; exact .inr (.inr (.inr (.inl ⟨y, by simp⟩)))
  | ldVxDt x | ldVxK x => cases hw; simp
  | loadRegs x => rw [eq_vf_of_vf_le hw]; simp
  | _ => exact hw.elim

/-- Settles O46: each of these elements stands as `LeavesParts` has the instruction leave it. -/
theorem partsChangeOnlyByTheirWriters : Obligations.PartsChangeOnlyByTheirWriters := by
  intro i s t h
  have hp := exec_leavesParts h
  change (t.parts.I ≠ _ → _) ∧ (t.parts.stack ≠ _ → _) ∧ (t.parts.sp ≠ _ → _) ∧ (t.parts.DT ≠ _ → _) ∧ (t.parts.ST ≠ _ → _) ∧
    (t.parts.mem ≠ _ → _) ∧ (t.parts.fb ≠ _ ∨ t.parts.dirty ≠ _ → _) ∧ (t.parts.log ≠ _ → _)
  generalize t.parts = p at hp
  cases hp with
  | storeRegs x m | loadRegs x =>
    have hI := @State.increment_of_indexAfter_ne s x
    simpa [State.parts] using hI
  | _ => simp [State.parts]

/-- Settles O47: an instruction that completes leaves the engine as it was, and a raise writes of it the status and the call. -/
theorem noInstructionWritesKeysOrEngine : Obligations.NoInstructionWritesKeysOrEngine := by
  intro i s t h
  obtain he | ⟨f, rfl⟩ := (exec_completesOrRaises i s).cases h
  · obtain ⟨hkeys, hcpu, htmr, -, hcall, hparams, hinputs⟩ := State.engine_eq_iff.mp he
    exact ⟨hkeys, hcpu, htmr, hparams, hinputs, .inl hcall⟩
  · exact ⟨rfl, rfl, rfl, rfl, rfl, .inr ⟨f, rfl⟩⟩

/-! ### A whole host call -/

/-- The engine outside host calls, with the status left open: what the cycles of a call keep. -/
def Engine.between (e : Engine) (st : Status) : Engine := { e with status := st, call := none }

/-- A cycle with no call in progress, as the blocks run it, always goes on, and keeps all of the engine but the status (R204, R226). -/
theorem cycle_between {s : State} (h : s.call = none) : ∃ t st, cycle s = .next t ∧ t.engine = s.engine.between st := by
  obtain ⟨t, ht, he⟩ | ⟨f, hf⟩ := cycle_completesOrRaises s
  · refine ⟨t, s.status, ht, he.trans ?_⟩
    simp [State.engine, Engine.between, h]
  · exact ⟨s.raise f, .halted f, hf, rfl⟩

/-- The CPU block always comes to its end (R234). -/
theorem runCpu_between (n : Nat) {s : State} (h : s.call = none) :
    ∃ t st, runCpu n s = .next t ∧ t.engine = s.engine.between st := by
  have hself : s.engine = s.engine.between s.status := by simp [State.engine, Engine.between, h]
  induction n generalizing s with
  | zero => exact ⟨s, s.status, rfl, hself⟩
  | succ n ih =>
    rcases hs : s.status with _ | _ | f
    · exact ⟨s, s.status, by simp [runCpu, hs], hself⟩
    · obtain ⟨t, st, ht, he⟩ := cycle_between h
      have htc : t.call = none := congrArg Engine.call he
      obtain ⟨u, st', hu, he'⟩ := ih htc (by simp [State.engine, Engine.between, htc])
      exact ⟨u, st', by simp [runCpu, hs, ht, hu], by rw [he', he]; rfl⟩
    · exact ⟨s, s.status, by simp [runCpu, hs], hself⟩

/-- Timer cycles keep the whole engine (R233). -/
theorem runTimers_engine (n : Nat) (s : State) : (runTimers n s).engine = s.engine := by
  induction n generalizing s with
  | zero => rfl
  | succ n ih => rw [runTimers, ih]; rfl

/-- The rest of a host call always comes to its end, in either order, and keeps all of the engine but the status (R208, R234). -/
theorem finishCall_between (s : State) : ∃ t st, finishCall s = .next t ∧ t.engine = s.engine.between st := by
  rcases hc : s.call with _ | c
  · exact ⟨s, s.status, by simp [finishCall, hc], by simp [State.engine, Engine.between, hc]⟩
  · cases hf : c.timersFirst with
    | true =>
      have he := runTimers_engine c.tmr (s.setCall none)
      obtain ⟨t, st, ht, he'⟩ := runCpu_between c.cpu (s := runTimers c.tmr (s.setCall none)) (congrArg Engine.call he)
      exact ⟨t, st, by simp [finishCall, hc, hf, runTimersFirst, ht], by rw [he', he]; rfl⟩
    | false =>
      obtain ⟨t, st, ht, he⟩ := runCpu_between c.cpu (s := s.setCall none) rfl
      refine ⟨if t.status = .running then runTimers c.tmr t else t, st,
        by simp [finishCall, hc, hf, runCpuFirst, ht], Eq.trans ?_ he⟩
      split
      · exact runTimers_engine c.tmr t
      · rfl

@[simp] theorem startCall_keys (hz ms : Nat) (s : State) : (startCall hz ms s).keys = s.keys := by
  obtain ⟨-, -, h⟩ | ⟨-, -, h⟩ | ⟨-, h⟩ := s.orderSettled_cases <;> simp [startCall, h]

/-- Settles O51: the call starts with the remainders in the accumulators (R231), and its cycles come to an end and leave them. -/
theorem hostCallKeepsRemainders : Obligations.HostCallKeepsRemainders := by
  intro s ms hz hrun hclock
  have hstart : hostCall ms s = .next (startCall hz ms s) := by simp only [hostCall, hrun, hclock]
  obtain ⟨t, st, ht, he⟩ := finishCall_between (startCall hz ms s)
  refine ⟨t, by simp only [wholeCall, hstart, ht], congrArg Engine.call he, congrArg Engine.accCpu he,
    congrArg Engine.accTmr he, ?_, ?_, ?_⟩
  · exact (congrArg Engine.params he).trans (startCall_params hz ms s)
  · exact (congrArg Engine.keys he).trans (startCall_keys hz ms s)
  · exact (congrArg Engine.inputs he).trans (startCall_inputs hz ms s)

end Sys2Proof.Machine
end

section
/-! SUPPORT. Obligations of spec/20_memory.md: canonical memories are equal where they read alike (R50), a byte written and read
back through effective addresses (R55 to R57, R60), the word a fetch reads (R91, R92), and a store seen by the next fetch (R63). -/

namespace Sys2Proof.Machine

/-! ### Canonical memories -/

@[simp] theorem Memory.read_cons_same (c : Host.Cell) (m : Memory) : Memory.read (c :: m) c.1 = c.2 := by
  simp [Memory.read]

theorem Memory.read_cons_of_ne {c : Host.Cell} {a : Nat} (m : Memory) (h : c.1 ≠ a) :
    Memory.read (c :: m) a = m.read a := by
  simp [Memory.read, h]

/-- A memory that reads like a canonical one lists a cell no later than its first: elsewhere it would read as unlisted there. -/
theorem Memory.exists_mem_le_of_read_eq {c : Host.Cell} {m n : Memory} (hm : Memory.wf (c :: m) = true)
    (h : ∀ a, Memory.read (c :: m) a = n.read a) : ∃ d ∈ n, d.1 ≤ c.1 := by
  obtain ⟨-, -, hne, -⟩ := Memory.wf_cons.mp hm
  by_contra hn
  push Not at hn
  exact hne (by rw [← Memory.read_cons_same c m, h, Memory.read_of_lt hn])

/-- The first cell of a canonical memory lies no later than that of a canonical memory it reads like. -/
theorem Memory.head_le_of_read_eq {c d : Host.Cell} {m n : Memory} (hm : Memory.wf (c :: m) = true)
    (hn : Memory.wf (d :: n) = true) (h : ∀ a, Memory.read (c :: m) a = Memory.read (d :: n) a) : d.1 ≤ c.1 := by
  obtain ⟨hlt, -, -, -⟩ := Memory.wf_cons.mp hn
  obtain ⟨e, he, hle⟩ := Memory.exists_mem_le_of_read_eq hm h
  rcases List.mem_cons.mp he with rfl | he
  · exact hle
  · exact (hlt e he).le.trans hle

/-- Canonical memories of one first cell that read alike have tails that read alike: each is unlisted at that cell's address. -/
theorem Memory.read_tail_eq {c : Host.Cell} {m n : Memory} (hm : Memory.wf (c :: m) = true)
    (hn : Memory.wf (c :: n) = true) (h : ∀ a, Memory.read (c :: m) a = Memory.read (c :: n) a) (a : Nat) :
    m.read a = n.read a := by
  obtain ⟨hltm, -, -, -⟩ := Memory.wf_cons.mp hm
  obtain ⟨hltn, -, -, -⟩ := Memory.wf_cons.mp hn
  by_cases ha : c.1 = a
  · rw [← ha, Memory.read_of_lt hltm, Memory.read_of_lt hltn]
  · rw [← Memory.read_cons_of_ne m ha, h, Memory.read_cons_of_ne n ha]

/-- Settles O34: by induction on the lists; the first cells lie at one address, hold what it reads, and the tails read alike. -/
theorem canonicalMemoriesReadingAlikeAreEqual : Obligations.CanonicalMemoriesReadingAlikeAreEqual := by
  intro m
  induction m with
  | nil =>
    intro n _ hn h
    cases n with
    | nil => rfl
    | cons d n =>
      obtain ⟨e, he, -⟩ := Memory.exists_mem_le_of_read_eq hn fun a => (h a).symm
      cases he
  | cons c m ih =>
    intro n hm hn h
    cases n with
    | nil =>
      obtain ⟨e, he, -⟩ := Memory.exists_mem_le_of_read_eq hm h
      cases he
    | cons d n =>
      have haddr : c.1 = d.1 :=
        le_antisymm (Memory.head_le_of_read_eq hn hm fun a => (h a).symm) (Memory.head_le_of_read_eq hm hn h)
      have hbyte : c.2 = d.2 := by
        rw [← Memory.read_cons_same c m, h, haddr, Memory.read_cons_same]
      obtain rfl : c = d := Prod.ext haddr hbyte
      obtain ⟨-, -, -, hm'⟩ := Memory.wf_cons.mp hm
      obtain ⟨-, -, -, hn'⟩ := Memory.wf_cons.mp hn
      rw [ih n hm' hn' (Memory.read_tail_eq hm hn h)]

/-! ### Effective addresses -/

/-- The effective addresses all exist where the check of R57 answers no fault. -/
theorem State.inRange_iff {s : State} {base n : Nat} :
    s.InRange base n ↔ rangeFault s.params.addrPolicy base n = none := by
  unfold State.InRange
  cases s.params.addrPolicy with
  | fault => simp [rangeFault, or_iff_not_imp_left]
  | wrap12 => simp [rangeFault]

/-- Under Fault an effective address names the byte at itself (R57). -/
theorem State.place_of_fault {s : State} (h : s.params.addrPolicy = .fault) (e : Nat) : s.place e = e := by
  simp [State.place, effectiveAddress, h]

/-- Under Wrap12 an effective address names the byte at itself mod 4096 (R57). -/
theorem State.place_of_wrap12 {s : State} (h : s.params.addrPolicy = .wrap12) (e : Nat) : s.place e = e % 4096 := by
  simp [State.place, effectiveAddress, h, Config.memSize]

theorem State.readByte_eq (s : State) (e : Nat) : s.readByte e = s.mem.read (s.place e) := rfl

/-- Where `n` effective addresses exist, each names a byte of memory. -/
theorem State.InRange.place_lt {s : State} {base n k : Nat} (h : s.InRange base n) (hk : k < n) :
    s.place (base + k) < Config.memSize :=
  effectiveAddress_lt (State.inRange_iff.mp h) hk

/-- A byte written is what every effective address of its place then reads, and no other place changes (R55, R56, R60). -/
theorem State.writeByte_readByte {s : State} {e : Nat} (h : s.InRange e 1) (v : Byte) (f : Nat) :
    (s.writeByte e v).readByte f = if s.place f = s.place e then v else s.readByte f :=
  Memory.read_write s.mem (s.place f) v (h.place_lt Nat.one_pos)

/-- Writing memory keeps every other element. -/
theorem State.keepsBut_setMem (s : State) (m : Memory) : s.KeepsBut (s.setMem m) [] [.memory] := by
  simp [State.KeepsBut]

/-- Settles O33: `place` is the policy's reduction, the read after the write is memory's own at the two places, and a write sets
memory only. -/
theorem writeThenReadMemory : Obligations.WriteThenReadMemory := by
  intro s e f v he
  refine ⟨fun hp => ?_, fun hp => ?_, State.writeByte_readByte he v f, fun hp => ?_, rfl, s.keepsBut_setMem _⟩
  · rw [State.readByte_eq, State.place_of_fault hp]
    exact ⟨rfl, rfl⟩
  · rw [State.readByte_eq, State.place_of_wrap12 hp]
    exact ⟨rfl, rfl⟩
  · have hplace : s.place (e + 4096) = s.place e := by
      rw [State.place_of_wrap12 hp, State.place_of_wrap12 hp, Nat.add_mod_right]
    rw [State.writeByte_readByte he, if_pos hplace]

/-! ### The fetch -/

/-- The fetched word has the byte at the lower effective address in its bits 15:8 (R53, R92). -/
theorem State.fetchWord_toNat (s : State) :
    s.fetchWord.toNat = (s.readByte s.pc.toNat).toNat * 256 + (s.readByte (s.pc.toNat + 1)).toNat := by
  have hlow := (s.readByte (s.pc.toNat + 1)).isLt
  rw [State.fetchWord, BitVec.toNat_append, ← Nat.shiftLeft_add_eq_or_of_lt hlow, Nat.shiftLeft_eq]

/-- Settles O6: the two bytes of the fetch stand at the places of `pc` and `pc + 1` (R91). -/
theorem fetchReadsBigEndianWord : Obligations.FetchReadsBigEndianWord := by
  intro s
  rw [State.fetchWord_toNat, State.readByte_eq, State.readByte_eq]
  exact ⟨fun hp => by rw [State.place_of_fault hp, State.place_of_fault hp],
    fun hp => by rw [State.place_of_wrap12 hp, State.place_of_wrap12 hp]⟩

/-! ### A store over the next instruction -/

@[simp] theorem State.writeBytes_params (s : State) (e : Nat) (bs : List Byte) :
    (s.writeBytes e bs).params = s.params :=
  congrArg Engine.params (s.writeBytes_engine e bs)

@[simp] theorem State.writeBytes_pc (s : State) (e : Nat) (bs : List Byte) : (s.writeBytes e bs).pc = s.pc := by
  obtain ⟨m, hm, -⟩ := s.writeBytes_eq e bs
  rw [hm, State.setMem_pc]

/-- Each byte of a list written where its addresses exist is the one its effective address then reads (R55, R56). -/
theorem State.writeBytes_readByte {s : State} {base k : Nat} {bs : List Byte} (h : s.InRange base bs.length)
    (hlen : bs.length ≤ Config.memSize) (hk : k < bs.length) :
    (s.writeBytes base bs).readByte (base + k) = bs.getD k 0 := by
  obtain ⟨hread, -⟩ := s.read_writeBytes base bs.length bs rfl hlen fun _ hj => h.place_lt hj
  rw [State.readByte, State.writeBytes_params, hread k hk]

/-- The registers stored are what their effective addresses then read (R154). -/
theorem State.writeBytes_firstRegs_readByte {s : State} {base : Nat} {x k : Reg} (h : s.InRange base (x.val + 1))
    (hk : k.val ≤ x.val) : (s.writeBytes base (s.firstRegs x)).readByte (base + k.val) = s.readV k := by
  have hlen : (s.firstRegs x).length = x.val + 1 := s.firstRegs_length x
  have hmem : x.val + 1 ≤ Config.memSize := by have := x.isLt; simp only [Config.memSize]; omega
  rw [State.writeBytes_readByte (hlen ▸ h) (hlen ▸ hmem) (by omega), State.firstRegs_getD s x k hk]

/-- `LD [I], Vx` where its addresses exist (R154). -/
theorem execStoreRegs_of_inRange {s : State} {x : Reg} (h : s.InRange s.I.toNat (x.val + 1)) :
    execStoreRegs x s = .next ((s.writeBytes s.I.toNat (s.firstRegs x)).setI (s.indexAfter x)).advance :=
  State.checkRange_of_none _ (State.inRange_iff.mp h)

/-- Settles O13: the store completes with `pc` at I, where the next fetch reads the first two registers stored. -/
theorem storeIsSeenByNextFetch : Obligations.StoreIsSeenByNextFetch := by
  intro s x hx hI hend
  have hrange : s.InRange s.I.toNat (x.val + 1) := .inr (.inr (by simp only [Config.memSize]; omega))
  refine ⟨_, execStoreRegs_of_inRange hrange, by simp, ?_⟩
  have hV0 : (s.writeBytes s.I.toNat (s.firstRegs x)).readByte s.I.toNat = s.readV 0 :=
    State.writeBytes_firstRegs_readByte (k := 0) hrange (Nat.zero_le _)
  have hV1 : (s.writeBytes s.I.toNat (s.firstRegs x)).readByte (s.I.toNat + 1) = s.readV 1 :=
    State.writeBytes_firstRegs_readByte (k := 1) hrange hx
  rw [State.fetchWord_toNat]
  simp only [State.advance_eq, State.setPc_pc, State.setPc_readByte, State.setI_pc, State.setI_readByte,
    State.writeBytes_pc, ← hI, hV0, hV1]

end Sys2Proof.Machine
end

section
/-! SUPPORT. Obligations of spec/30_encoding.md on the opcode table: the bits each mask keeps, the rows a word matches (R87 to
R89), the row of each instruction, decode and encode as inverses (R83, R94), and the unknown words (R96). -/

namespace Sys2Proof

/-! ### The bits each mask keeps -/

/-- `w[15:12]`, the bits every mask of R94 keeps. -/
def topNibble (w : Word) : BitVec 4 := w.extractLsb' 12 4

@[simp] theorem topNibble_nibble_addr (n : BitVec 4) (a : BitVec 12) : topNibble (n ++ a : Word) = n := by
  refine BitVec.eq_of_getLsbD_eq fun i hi => ?_
  simp only [topNibble, BitVec.getLsbD_extractLsb', getLsbD_nibble_addr]
  interval_cases i <;> simp [-BitVec.getLsbD_eq_getElem]

@[simp] theorem topNibble_nibble_reg_byte (n r : BitVec 4) (b : BitVec 8) : topNibble (n ++ r ++ b : Word) = n := by
  refine BitVec.eq_of_getLsbD_eq fun i hi => ?_
  simp only [topNibble, BitVec.getLsbD_extractLsb', getLsbD_nibble_reg_byte]
  interval_cases i <;> simp [-BitVec.getLsbD_eq_getElem]

@[simp] theorem topNibble_four_nibbles (n r q l : BitVec 4) : topNibble (n ++ r ++ q ++ l : Word) = n := by
  refine BitVec.eq_of_getLsbD_eq fun i hi => ?_
  simp only [topNibble, BitVec.getLsbD_extractLsb', getLsbD_four_nibbles]
  interval_cases i <;> simp [-BitVec.getLsbD_eq_getElem]

theorem and_F000 (w : Word) : w &&& 0xF000 = topNibble w ++ 0#12 :=
  (congrArg (· &&& 0xF000) (word_eq_nibble_addr w)).trans (nibble_addr_and_F000 _ _)

theorem and_F0FF (w : Word) : w &&& 0xF0FF = topNibble w ++ 0#4 ++ byteField w :=
  (congrArg (· &&& 0xF0FF) (word_eq_nibble_reg_byte w)).trans (nibble_reg_byte_and_F0FF _ _ _)

theorem and_F00F (w : Word) : w &&& 0xF00F = topNibble w ++ 0#4 ++ 0#4 ++ nibbleField w :=
  (congrArg (· &&& 0xF00F) (word_eq_four_nibbles w)).trans (four_nibbles_and_F00F _ _ _ _)

theorem and_FFFF (w : Word) : w &&& 0xFFFF = w := BitVec.and_allOnes

theorem and_F000_eq_iff {w : Word} {n : BitVec 4} : w &&& 0xF000 = n ++ 0#12 ↔ topNibble w = n := by
  rw [and_F000]
  exact ⟨fun h => by simpa only [topNibble_nibble_addr] using congrArg topNibble h, fun h => by rw [h]⟩

theorem and_F0FF_eq_iff {w : Word} {n : BitVec 4} {b : BitVec 8} :
    w &&& 0xF0FF = n ++ 0#4 ++ b ↔ topNibble w = n ∧ byteField w = b := by
  rw [and_F0FF]
  refine ⟨fun h => ⟨?_, ?_⟩, fun ⟨ht, hb⟩ => by rw [ht, hb]⟩
  · simpa only [topNibble_nibble_reg_byte] using congrArg topNibble h
  · simpa only [byteField_nibble_reg_byte] using congrArg byteField h

theorem and_F00F_eq_iff {w : Word} {n l : BitVec 4} :
    w &&& 0xF00F = n ++ 0#4 ++ 0#4 ++ l ↔ topNibble w = n ∧ nibbleField w = l := by
  rw [and_F00F]
  refine ⟨fun h => ⟨?_, ?_⟩, fun ⟨ht, hl⟩ => by rw [ht, hl]⟩
  · simpa only [topNibble_four_nibbles] using congrArg topNibble h
  · simpa only [nibbleField_four_nibbles] using congrArg nibbleField h

/-! ### A word made again from its fields and a row's fixed bits -/

theorem nibble_addrField {w : Word} {n : BitVec 4} (h : w &&& 0xF000 = n ++ 0#12) : n ++ addrField w = w := by
  rw [← and_F000_eq_iff.mp h]
  exact (word_eq_nibble_addr w).symm

theorem nibble_xField_byteField {w : Word} {n : BitVec 4} (h : w &&& 0xF000 = n ++ 0#12) :
    n ++ regBits (xField w) ++ byteField w = w := by
  rw [← and_F000_eq_iff.mp h, xField, regBits_regOfBits]
  exact (word_eq_nibble_reg_byte w).symm

theorem nibble_xField_byte {w : Word} {n : BitVec 4} {b : BitVec 8} (h : w &&& 0xF0FF = n ++ 0#4 ++ b) :
    n ++ regBits (xField w) ++ b = w := by
  obtain ⟨rfl, rfl⟩ := and_F0FF_eq_iff.mp h
  rw [xField, regBits_regOfBits]
  exact (word_eq_nibble_reg_byte w).symm

theorem nibble_xField_yField_nibble {w : Word} {n l : BitVec 4} (h : w &&& 0xF00F = n ++ 0#4 ++ 0#4 ++ l) :
    n ++ regBits (xField w) ++ regBits (yField w) ++ l = w := by
  obtain ⟨rfl, rfl⟩ := and_F00F_eq_iff.mp h
  rw [xField, yField, regBits_regOfBits, regBits_regOfBits]
  exact (word_eq_four_nibbles w).symm

theorem nibble_xField_yField_nibbleField {w : Word} {n : BitVec 4} (h : w &&& 0xF000 = n ++ 0#12) :
    n ++ regBits (xField w) ++ regBits (yField w) ++ nibbleField w = w := by
  rw [← and_F000_eq_iff.mp h, xField, yField, regBits_regOfBits, regBits_regOfBits]
  exact (word_eq_four_nibbles w).symm

/-! ### The rows a word matches -/

theorem OpcodeRow.matchesWord_iff {r : OpcodeRow} {w : Word} : r.matchesWord w = true ↔ w &&& r.mask = r.pattern := by
  rw [OpcodeRow.matchesWord, beq_iff_eq]

/-- The fixed bits of the two rows differ where both masks keep them. -/
abbrev OpcodeRow.Apart (r q : OpcodeRow) : Prop := r.pattern &&& q.mask ≠ q.pattern &&& r.mask

/-- No word matches two rows that stand apart. -/
theorem OpcodeRow.Apart.not_matchesWord {r q : OpcodeRow} {w : Word} (h : r.Apart q) (hr : r.matchesWord w = true) :
    ¬ q.matchesWord w = true := by
  intro hq
  rw [matchesWord_iff] at hr hq
  exact h (by rw [← hr, ← hq, BitVec.and_assoc, BitVec.and_assoc, BitVec.and_comm r.mask])

/-- The rows after CLS and RET stand apart, each from each (R88). -/
theorem opcodeTable_drop_two_apart : (opcodeTable.drop 2).Pairwise OpcodeRow.Apart := by
  decide

/-- Of rows that stand apart a word matches at most one. -/
theorem length_filter_matchesWord_le_one {l : List OpcodeRow} (h : l.Pairwise OpcodeRow.Apart) (w : Word) :
    (l.filter fun r => r.matchesWord w).length ≤ 1 := by
  induction h with
  | nil => exact Nat.zero_le 1
  | @cons r l hr _ ih =>
    by_cases hw : r.matchesWord w = true
    · have hl : (l.filter fun q => q.matchesWord w) = [] :=
        List.filter_eq_nil_iff.mpr fun q hq => (hr q hq).not_matchesWord hw
      simp [hw, hl]
    · simpa [hw] using ih

/-- A word but those of CLS and RET matches at most one row of the table (R88). -/
theorem length_filter_opcodeTable_le_one {w : Word} (hcls : w ≠ 0x00E0) (hret : w ≠ 0x00EE) :
    (opcodeTable.filter fun r => r.matchesWord w).length ≤ 1 := by
  have h := length_filter_matchesWord_le_one opcodeTable_drop_two_apart w
  have hdrop : opcodeTable = opcodeTable.take 2 ++ opcodeTable.drop 2 := rfl
  have htake : ((opcodeTable.take 2).filter fun r => r.matchesWord w) = [] := by
    refine List.filter_eq_nil_iff.mpr fun r hr => ?_
    rw [OpcodeRow.matchesWord_iff]
    obtain rfl | rfl : r = ⟨0x00E0, 0xFFFF, fun _ => .cls⟩ ∨ r = ⟨0x00EE, 0xFFFF, fun _ => .ret⟩ := by
      simpa [opcodeTable, opcodeRowsA] using hr
    · exact fun hw => hcls ((and_FFFF w).symm.trans hw)
    · exact fun hw => hret ((and_FFFF w).symm.trans hw)
  rw [hdrop, List.filter_append, htake]
  exact h

/-- Settles O5: the words of CLS and RET match their own row and that of SYS. -/
theorem onlyClsAndRetWordsMatchTwice : Obligations.OnlyClsAndRetWordsMatchTwice := by
  intro w
  constructor
  · intro h
    by_contra hw
    obtain ⟨hcls, hret⟩ := not_or.mp hw
    exact absurd (length_filter_opcodeTable_le_one hcls hret) (by omega)
  · rintro (rfl | rfl) <;> decide

/-- Settles O1: the first row each word matches is found by evaluation. -/
theorem sampleWordsDecode : Obligations.SampleWordsDecode := by
  unfold Obligations.SampleWordsDecode
  decide

/-! ### The row of an instruction -/

theorem Instr.ctorIdx_lt (i : Instr) : i.ctorIdx < opcodeTable.length := by
  cases i <;> exact Nat.le_of_ble_eq_true rfl

/-- The instruction's own row: the constructors of `Instr` stand in the table's order (R94). -/
def Instr.row (i : Instr) : OpcodeRow := opcodeTable[i.ctorIdx]'i.ctorIdx_lt

theorem Instr.row_mem (i : Instr) : i.row ∈ opcodeTable := List.getElem_mem _

/-- A row builds instructions whose row it is. -/
theorem row_build {r : OpcodeRow} (hr : r ∈ opcodeTable) (w : Word) : (r.build w).row = r := by
  have h : opcodeTable.map (fun r => (r.build w).row) = opcodeTable.map id := rfl
  exact List.map_inj_left.mp h r hr

theorem Instr.row_fixedBits (i : Instr) : i.fixedBits = (i.row.mask, i.row.pattern) := by
  cases i <;> rfl

/-- The family `EncodesInRow` over all instructions. -/
theorem Instr.encodesInRow : ∀ i : Instr, Laws.EncodesInRow.Statement i
  | .cls => Laws.EncodesInRow.cls
  | .ret => Laws.EncodesInRow.ret
  | .sys addr => Laws.EncodesInRow.sys addr
  | .jp addr => Laws.EncodesInRow.jp addr
  | .call addr => Laws.EncodesInRow.call addr
  | .seByte x byte => Laws.EncodesInRow.seByte x byte
  | .sneByte x byte => Laws.EncodesInRow.sneByte x byte
  | .seReg x y => Laws.EncodesInRow.seReg x y
  | .ldByte x byte => Laws.EncodesInRow.ldByte x byte
  | .addByte x byte => Laws.EncodesInRow.addByte x byte
  | .ldReg x y => Laws.EncodesInRow.ldReg x y
  | .orReg x y => Laws.EncodesInRow.orReg x y
  | .andReg x y => Laws.EncodesInRow.andReg x y
  | .xorReg x y => Laws.EncodesInRow.xorReg x y
  | .addReg x y => Laws.EncodesInRow.addReg x y
  | .sub x y => Laws.EncodesInRow.sub x y
  | .shr x y => Laws.EncodesInRow.shr x y
  | .subn x y => Laws.EncodesInRow.subn x y
  | .shl x y => Laws.EncodesInRow.shl x y
  | .sneReg x y => Laws.EncodesInRow.sneReg x y
  | .ldI addr => Laws.EncodesInRow.ldI addr
  | .jpV0 addr => Laws.EncodesInRow.jpV0 addr
  | .rnd x byte => Laws.EncodesInRow.rnd x byte
  | .drw x y nibble => Laws.EncodesInRow.drw x y nibble
  | .skp x => Laws.EncodesInRow.skp x
  | .sknp x => Laws.EncodesInRow.sknp x
  | .ldVxDt x => Laws.EncodesInRow.ldVxDt x
  | .ldVxK x => Laws.EncodesInRow.ldVxK x
  | .ldDtVx x => Laws.EncodesInRow.ldDtVx x
  | .ldStVx x => Laws.EncodesInRow.ldStVx x
  | .addI x => Laws.EncodesInRow.addI x
  | .ldF x => Laws.EncodesInRow.ldF x
  | .ldB x => Laws.EncodesInRow.ldB x
  | .storeRegs x => Laws.EncodesInRow.storeRegs x
  | .loadRegs x => Laws.EncodesInRow.loadRegs x

/-- The word of an instruction matches the instruction's row. -/
theorem Instr.row_matchesWord_encode (i : Instr) : i.row.matchesWord (encode i) = true := by
  have h := i.encodesInRow
  rw [Laws.EncodesInRow.Statement, i.row_fixedBits] at h
  exact OpcodeRow.matchesWord_iff.mpr h

/-- The fields of an instruction's word are its operands (R83). -/
theorem Instr.row_build_encode (i : Instr) : i.row.build (encode i) = i := by
  cases i with
  | cls | ret => rfl
  | sys addr | jp addr | call addr | ldI addr | jpV0 addr => exact congrArg _ (addrField_nibble_addr _ addr)
  | seByte x kk | sneByte x kk | ldByte x kk | addByte x kk | rnd x kk =>
    exact congrArg₂ _ ((xField_nibble_reg_byte _ _ kk).trans (regOfBits_regBits x)) (byteField_nibble_reg_byte _ _ kk)
  | seReg x y | ldReg x y | orReg x y | andReg x y | xorReg x y | addReg x y | sub x y | shr x y | subn x y | shl x y
  | sneReg x y =>
    exact congrArg₂ _ ((xField_four_nibbles _ _ _ _).trans (regOfBits_regBits x))
      ((yField_four_nibbles _ _ _ _).trans (regOfBits_regBits y))
  | drw x y n =>
    exact congr (congrArg₂ _ ((xField_four_nibbles _ _ _ _).trans (regOfBits_regBits x))
      ((yField_four_nibbles _ _ _ _).trans (regOfBits_regBits y))) (nibbleField_four_nibbles _ _ _ n)
  | skp x | sknp x | ldVxDt x | ldVxK x | ldDtVx x | ldStVx x | addI x | ldF x | ldB x | storeRegs x | loadRegs x =>
    exact congrArg _ ((xField_nibble_reg_byte _ _ _).trans (regOfBits_regBits x))

/-! ### Decode and encode -/

/-- A word that decodes matches the row of its instruction, whose fields it holds (R87). -/
theorem row_of_decode {w : Word} {i : Instr} (h : decode w = some i) :
    i.row.matchesWord w = true ∧ i.row.build w = i := by
  obtain ⟨r, hfind, rfl⟩ := Option.map_eq_some_iff.mp h
  have hw : r.matchesWord w = true := List.find?_some (p := fun r : OpcodeRow => r.matchesWord w) hfind
  rw [row_build (List.mem_of_find?_eq_some hfind)]
  exact ⟨hw, rfl⟩

/-- Where one row matches it is the row selected. -/
theorem decode_of_matchesWord {w : Word} {r : OpcodeRow} (hr : r ∈ opcodeTable) (hw : r.matchesWord w = true)
    (hcls : w ≠ 0x00E0) (hret : w ≠ 0x00EE) : decode w = some (r.build w) := by
  have hmem : r ∈ opcodeTable.filter fun r => r.matchesWord w := List.mem_filter.mpr ⟨hr, hw⟩
  have hone : (opcodeTable.filter fun r => r.matchesWord w) = [r] := by
    have hle := length_filter_opcodeTable_le_one hcls hret
    generalize (opcodeTable.filter fun r => r.matchesWord w) = l at hmem hle
    match l with
    | [q] => rw [List.mem_singleton.mp hmem]
  rw [decode, ← List.head?_filter, hone]
  rfl

/-- Of the instructions some word spells, only CLS and RET have the words that match two rows (R88). -/
theorem encode_eq_cls_or_ret {i : Instr} (hi : i.wellFormed = true) (h : encode i = 0x00E0 ∨ encode i = 0x00EE) :
    i = .cls ∨ i = .ret := by
  have hrow := i.encodesInRow
  rw [Laws.EncodesInRow.Statement] at hrow
  cases i with
  | cls => exact .inl rfl
  | ret => exact .inr rfl
  | sys addr =>
    have haddr : addr = addrField (encode (.sys addr)) := (addrField_nibble_addr _ addr).symm
    obtain h | h := h <;> rw [haddr, h] at hi <;> cases hi
  | _ => obtain h | h := h <;> simp [h, Instr.fixedBits] at hrow

/-- Settles O2: the word matches the instruction's row, whose fields are its operands, and but for CLS and RET no other row. -/
theorem decodeOfEncode : Obligations.DecodeOfEncode := by
  intro i hi
  by_cases h : encode i = 0x00E0 ∨ encode i = 0x00EE
  · obtain rfl | rfl := encode_eq_cls_or_ret hi h <;> rfl
  · obtain ⟨hcls, hret⟩ := not_or.mp h
    rw [decode_of_matchesWord i.row_mem i.row_matchesWord_encode hcls hret, i.row_build_encode]

/-- A word that matches an instruction's row is put together from that row's fixed bits and its own fields (R83, R89). -/
theorem encode_row_build {i : Instr} {w : Word} (h : i.row.matchesWord w = true) : encode (i.row.build w) = w := by
  rw [OpcodeRow.matchesWord_iff] at h
  cases i with
  | cls | ret => exact h.symm.trans (and_FFFF w)
  | sys _ | jp _ | call _ | ldI _ | jpV0 _ => exact nibble_addrField h
  | seByte _ _ | sneByte _ _ | ldByte _ _ | addByte _ _ | rnd _ _ => exact nibble_xField_byteField h
  | drw _ _ _ => exact nibble_xField_yField_nibbleField h
  | seReg _ _ | ldReg _ _ | orReg _ _ | andReg _ _ | xorReg _ _ | addReg _ _ | sub _ _ | shr _ _ | subn _ _ | shl _ _
  | sneReg _ _ => exact nibble_xField_yField_nibble h
  | skp _ | sknp _ | ldVxDt _ | ldVxK _ | ldDtVx _ | ldStVx _ | addI _ | ldF _ | ldB _ | storeRegs _ | loadRegs _ =>
    exact nibble_xField_byte h

/-- The two instructions that no word spells have the words of CLS and RET (R88). -/
theorem decode_encode_of_not_wellFormed {i : Instr} (hi : ¬ i.wellFormed = true) : decode (encode i) ≠ some i := by
  cases i with
  | sys addr =>
    obtain rfl | rfl : addr = 0x0E0 ∨ addr = 0x0EE := by
      simpa [Instr.wellFormed, or_iff_not_imp_left] using hi
    · decide
    · decide
  | _ => exact absurd rfl hi

/-- Settles O3: the word is its row's fixed bits and its own fields, which the instruction encodes to; the two ill-formed
instructions encode to the words of CLS and RET. -/
theorem encodeOfDecode : Obligations.EncodeOfDecode := by
  intro w i h
  obtain ⟨hw, hi⟩ := row_of_decode h
  have he : encode i = w := hi ▸ encode_row_build hw
  refine ⟨?_, he⟩
  by_contra hwf
  exact decode_encode_of_not_wellFormed hwf (he ▸ h)

/-! ### The unknown words

A word has a pattern's bits under a mask exactly where the parts the mask keeps agree as numbers, in R96's terms. -/

theorem topNibble_toNat (w : Word) : (topNibble w).toNat = w.toNat / 4096 := by
  have := w.isLt
  rw [topNibble, BitVec.extractLsb'_toNat, Nat.shiftRight_eq_div_pow, Nat.mod_eq_of_lt (by omega)]

theorem nibbleField_toNat (w : Word) : (nibbleField w).toNat = w.toNat % 16 := BitVec.extractLsb'_toNat ..

theorem byteField_toNat (w : Word) : (byteField w).toNat = w.toNat % 256 := BitVec.extractLsb'_toNat ..

theorem and_F000_eq_iff_toNat {w p : Word} (hp : p &&& 0xF000#16 = p) :
    w &&& 0xF000#16 = p ↔ w.toNat / 4096 = p.toNat / 4096 := by
  have h : w &&& 0xF000#16 = p ↔ topNibble w = topNibble p :=
    (Eq.congr_right (hp.symm.trans (and_F000 p))).trans and_F000_eq_iff
  rw [h, ← BitVec.toNat_inj, topNibble_toNat, topNibble_toNat]

theorem and_F0FF_eq_iff_toNat {w p : Word} (hp : p &&& 0xF0FF#16 = p) :
    w &&& 0xF0FF#16 = p ↔ w.toNat / 4096 = p.toNat / 4096 ∧ w.toNat % 256 = p.toNat % 256 := by
  have h : w &&& 0xF0FF#16 = p ↔ topNibble w = topNibble p ∧ byteField w = byteField p :=
    (Eq.congr_right (hp.symm.trans (and_F0FF p))).trans and_F0FF_eq_iff
  rw [h, ← BitVec.toNat_inj, ← BitVec.toNat_inj, topNibble_toNat, topNibble_toNat, byteField_toNat, byteField_toNat]

theorem and_F00F_eq_iff_toNat {w p : Word} (hp : p &&& 0xF00F#16 = p) :
    w &&& 0xF00F#16 = p ↔ w.toNat / 4096 = p.toNat / 4096 ∧ w.toNat % 16 = p.toNat % 16 := by
  have h : w &&& 0xF00F#16 = p ↔ topNibble w = topNibble p ∧ nibbleField w = nibbleField p :=
    (Eq.congr_right (hp.symm.trans (and_F00F p))).trans and_F00F_eq_iff
  rw [h, ← BitVec.toNat_inj, ← BitVec.toNat_inj, topNibble_toNat, topNibble_toNat, nibbleField_toNat, nibbleField_toNat]

theorem and_FFFF_eq_iff_toNat {w p : Word} :
    w &&& 0xFFFF#16 = p ↔ w.toNat / 4096 = p.toNat / 4096 ∧ w.toNat % 4096 = p.toNat % 4096 := by
  rw [show w &&& 0xFFFF#16 = w from and_FFFF w, ← BitVec.toNat_inj]
  omega

theorem decode_eq_none_iff {w : Word} : decode w = none ↔ ∀ r ∈ opcodeTable, w &&& r.mask ≠ r.pattern := by
  simp only [decode, Option.map_eq_none_iff, List.find?_eq_none, OpcodeRow.matchesWord_iff, ne_eq]

/-- Settles O4: a word is unknown where it has the fixed bits of no row, which its top nibble, low nibble and low byte decide;
under each top nibble the rows left are the complement of R96's class. -/
theorem unknownWordsAreThoseListed : Obligations.UnknownWordsAreThoseListed := by
  intro w
  have htop : w.toNat / 4096 < 16 := by have := w.isLt; omega
  rw [decode_eq_none_iff]
  simp only [opcodeTable, opcodeRowsA, opcodeRowsB, opcodeRowsC, opcodeRowsD, List.cons_append, List.nil_append,
    List.mem_cons, List.not_mem_nil, or_false, forall_eq_or_imp, forall_eq, ne_eq, not_and, not_or, and_F000_eq_iff_toNat,
    and_F0FF_eq_iff_toNat, and_F00F_eq_iff_toNat, and_FFFF_eq_iff_toNat, BitVec.ofNat_eq_ofNat, BitVec.reduceAnd,
    BitVec.toNat_ofNat, Nat.reducePow, Nat.reduceMod, Nat.reduceDiv]
  generalize w.toNat / 4096 = t at htop
  interval_cases t <;> simp
  -- Left is top nibble 8, where R96 names the low nibbles that no row has.
  · omega

end Sys2Proof
end

section
/-! SUPPORT. Obligations of spec/30_encoding.md on the CPU cycle: what a cycle of a host call runs (R90 to R95, R100), the word
placed for the next fetch, and the `pc` each instruction leaves (R101). -/

namespace Sys2Proof.Machine

/-! ### The checks of the fetch -/

/-- An odd `pc` under ODD_PC_POLICY = Fault is found first (R90). -/
theorem State.fetchFault_of_odd {s : State} (hp : s.params.oddPcPolicy = .fault) (h : s.pc.toNat % 2 = 1) :
    s.fetchFault = some (.misalignedFetch s.pc) :=
  if_pos ⟨hp, h⟩

/-- Where alignment is no fault the check left is that of the two addresses (R91). -/
theorem State.fetchFault_of_aligned {s : State} (h : s.params.oddPcPolicy = .allow ∨ s.pc.toNat % 2 = 0) :
    s.fetchFault = rangeFault s.params.addrPolicy s.pc.toNat 2 := by
  refine if_neg fun ⟨hp, hodd⟩ => ?_
  rcases h with h | h
  · rw [h] at hp; cases hp
  · omega

theorem State.fetchFault_eq_none {s : State} (h : s.params.oddPcPolicy = .allow ∨ s.pc.toNat % 2 = 0)
    (hr : s.InRange s.pc.toNat 2) : s.fetchFault = none :=
  (State.fetchFault_of_aligned h).trans (State.inRange_iff.mp hr)

/-! ### The CPU cycle within a host call -/

@[simp] theorem State.setCall_fetchFault (s : State) (c : Option Call) : (s.setCall c).fetchFault = s.fetchFault := rfl
@[simp] theorem State.setCall_fetchWord (s : State) (c : Option Call) : (s.setCall c).fetchWord = s.fetchWord := rfl

/-- A raise ends the call whatever is left of it (R208). -/
theorem State.setCall_raise (s : State) (c : Option Call) (f : Fault) : (s.setCall c).raise f = s.raise f := rfl

/-- What a CPU cycle does (R100), by what the checks and the decoder answer; the call in progress plays no part in them. -/
theorem cycle_setCall_of_fetchFault {s : State} {f : Fault} (c : Option Call) (h : s.fetchFault = some f) :
    cycle (s.setCall c) = .next (s.raise f) := by
  simp only [cycle, State.setCall_fetchFault, State.setCall_raise, h]

theorem cycle_setCall_of_unknown {s : State} (c : Option Call) (h : s.fetchFault = none) (hd : decode s.fetchWord = none) :
    cycle (s.setCall c) = .next (s.raise (.unknownOpcode s.fetchWord)) := by
  simp only [cycle, State.setCall_fetchFault, State.setCall_fetchWord, State.setCall_raise, h, hd]

theorem cycle_setCall_of_decode {s : State} {i : Instr} (c : Option Call) (h : s.fetchFault = none)
    (hd : decode s.fetchWord = some i) : cycle (s.setCall c) = exec i (s.setCall c) := by
  simp only [cycle, State.setCall_fetchFault, State.setCall_fetchWord, h, hd]

theorem Call.afterCpu_of_pos {c : Call} (h : 0 < c.cpu) :
    c.afterCpu = if c.cpu = 1 ∧ c.tmr = 0 then none else some { c with cpu := c.cpu - 1 } :=
  if_congr (and_congr_left' (show c.cpu - 1 = 0 ↔ c.cpu = 1 by omega)) rfl rfl

/-- A step of a running engine whose next turn is the CPU's is one CPU cycle (R226, R232). -/
theorem step_of_cpuTurn {s : State} {c : Call} (hs : s.status = .running) (hc : s.call = some c) (ht : c.turn = .cpu) :
    step s = cycle (s.setCall c.afterCpu) := by
  simp only [step, hc, callStep, hs, runTurn, ht]

/-- Settles O7: the step is the cycle, which runs what the fetched word decodes to, and that instruction has a word. -/
theorem stepRunsDecodedInstruction : Obligations.StepRunsDecodedInstruction := by
  intro s c i hs hc hcpu hturn halign hrange hd
  have hfetch : s.fetchFault = none := State.fetchFault_eq_none halign hrange
  refine ⟨?_, (encodeOfDecode _ _ hd).1⟩
  rw [step_of_cpuTurn hs hc (Call.turn_eq_cpu.mpr ⟨hcpu, hturn⟩), cycle_setCall_of_decode _ hfetch hd,
    Call.afterCpu_of_pos hcpu]
  rfl

/-- Settles O8: the step is the cycle, and each of its three checks raises where those before it find nothing. -/
theorem cycleFaultsInOrder : Obligations.CycleFaultsInOrder := by
  intro s c hs hc hcpu hturn
  rw [step_of_cpuTurn hs hc (Call.turn_eq_cpu.mpr ⟨hcpu, hturn⟩)]
  refine ⟨fun hp hodd => ?_, fun halign hp hpc => ?_, fun halign hrange hd => ?_⟩
  · exact cycle_setCall_of_fetchFault _ (State.fetchFault_of_odd hp hodd)
  · have haddr : max s.pc.toNat Config.memSize = if s.pc.toNat = 0xFFF then 0x1000 else s.pc.toNat := by
      simp only [Config.memSize]
      split <;> omega
    have hrange : rangeFault s.params.addrPolicy s.pc.toNat 2 = some (.addressFault (max s.pc.toNat Config.memSize)) :=
      rangeFault_eq_some.mpr ⟨hp, by decide, by simp only [Config.memSize]; omega, rfl⟩
    rw [haddr] at hrange
    exact cycle_setCall_of_fetchFault _ ((State.fetchFault_of_aligned halign).trans hrange)
  · exact cycle_setCall_of_unknown _ (State.fetchFault_eq_none halign hrange) hd

/-! ### The word placed for the next fetch -/

theorem tableWord_toNat (w : Word) : tableWord 16 w.toNat = w := by
  rw [tableWord, Nat.mod_eq_of_lt w.isLt, BitVec.ofNat_toNat, BitVec.setWidth_eq]

/-- A word placed where both its addresses exist is the one fetched (R53, R92). -/
theorem State.placeWord_fetchWord {s : State} (h : s.InRange s.pc.toNat 2) (w : Word) : (s.placeWord w).fetchWord = w := by
  have hhi : (s.placeWord w).readByte s.pc.toNat = w.extractLsb' 8 8 :=
    State.writeBytes_readByte (bs := wordBytes w) (k := 0) h (show 2 ≤ Config.memSize by decide) Nat.two_pos
  have hlo : (s.placeWord w).readByte (s.pc.toNat + 1) = w.extractLsb' 0 8 :=
    State.writeBytes_readByte (bs := wordBytes w) (k := 1) h (show 2 ≤ Config.memSize by decide) Nat.one_lt_two
  have hpc : (s.placeWord w).pc = s.pc := s.writeBytes_pc _ _
  rw [State.fetchWord, hpc, hhi, hlo]
  exact bytes_of_word w

@[simp] theorem State.withFetchWord_pc (s : State) (n v : Nat) : (s.withFetchWord n v).pc = s.pc := s.writeBytes_pc _ _

theorem State.withFetchWord_fetchWord {s : State} (h : s.InRange s.pc.toNat 2) (w : Word) :
    (s.withFetchWord 16 w.toNat).fetchWord = w := by
  rw [State.withFetchWord, tableWord_toNat]
  exact State.placeWord_fetchWord h w

/-- Settles O12: the call has this one cycle left, whose fetch reads the placed word. -/
theorem placedWordIsRunNext : Obligations.PlacedWordIsRunNext := by
  intro s w i heven hpc hd
  have hend : s.pc.toNat + 2 ≤ Config.memSize := by simp only [Config.memSize]; omega
  have hrange : (s.withFetchWord 16 w.toNat).InRange (s.withFetchWord 16 w.toNat).pc.toNat 2 :=
    .inr (.inr (by rwa [State.withFetchWord_pc]))
  have hfetch : decode (s.withFetchWord 16 w.toNat).fetchWord = some i := by
    rwa [State.withFetchWord_fetchWord (.inr (.inr hend))]
  exact (stepRunsDecodedInstruction (s.withFetchWord 16 w.toNat) ⟨1, 0, false⟩ i rfl rfl Nat.one_pos (.inl rfl)
    (.inr (by rwa [State.withFetchWord_pc])) hrange hfetch).1

/-! ### What each instruction leaves in `pc` -/

/-- An answer that completes with `pc` as `pcAfter` has it, or raises, which writes no `pc` (R101, R209). -/
def State.LeavesPc (s : State) (i : Instr) (r : StepResult) : Prop :=
  (∃ t, r = .next t ∧ t.pc = s.pcAfter i) ∨ ∃ f, r = .next (s.raise f)

theorem State.leavesPc_next {s t : State} {i : Instr} (h : t.pc = s.pcAfter i) : s.LeavesPc i (.next t) :=
  .inl ⟨t, rfl, h⟩

theorem State.leavesPc_raise (s : State) (i : Instr) (f : Fault) : s.LeavesPc i (.next (s.raise f)) := .inr ⟨f, rfl⟩

theorem State.leavesPc_checkRange {s done : State} {i : Instr} (base n : Nat) (h : done.pc = s.pcAfter i) :
    s.LeavesPc i (s.checkRange base n done) := by
  obtain ⟨-, -, -, e⟩ | ⟨-, e⟩ := s.checkRange_cases base n done <;> rw [e]
  · exact s.leavesPc_raise i _
  · exact State.leavesPc_next h

/-- RET goes past the popped address, or past itself on underflow (R111). -/
theorem execRet_leavesPc (s : State) : s.LeavesPc .ret (execRet s) := by
  by_cases h : s.sp.val = 0
  · rw [execRet, State.pop_of_zero h]
    exact State.leavesPc_next (by simp [State.pcAfter, h])
  · have hpos : 0 < s.sp.val := by omega
    rw [execRet, State.pop_of_pos hpos]
    exact State.leavesPc_next (by simp [State.pcAfter, hpos])

/-- CALL goes to its target, or past itself on overflow (R114). -/
theorem execCall_leavesPc (addr : Addr12) (s : State) : s.LeavesPc (.call addr) (execCall addr s) := by
  by_cases h : s.sp.val < Config.stackDepth
  · rw [execCall, State.push_of_lt _ h]
    exact State.leavesPc_next (by simp [State.pcAfter, h, targetOf])
  · rw [execCall, State.push_of_full _ h]
    exact State.leavesPc_next (by simp [State.pcAfter, h])

theorem execSys_leavesPc (addr : Addr12) (s : State) : s.LeavesPc (.sys addr) (execSys addr s) := by
  unfold execSys
  split
  · exact State.leavesPc_next rfl
  · exact s.leavesPc_raise _ _

/-- The offset register is the field's high nibble (R119). -/
theorem offsetReg_eq (addr : Addr12) : offsetReg addr = ⟨addr.toNat / 256, by have := addr.isLt; omega⟩ := by
  have := addr.isLt
  refine Fin.ext ?_
  simp only [offsetReg, BitVec.extractLsb'_toNat, Nat.shiftRight_eq_div_pow]
  omega

theorem execJpV0_leavesPc (addr : Addr12) (s : State) : s.LeavesPc (.jpV0 addr) (execJpV0 addr s) := by
  refine State.leavesPc_next ?_
  cases h : s.params.jumpOffsetReg <;> simp [State.pcAfter, State.jumpOffset, h, targetOf, offsetReg_eq]

/-- SKP and SKNP compare the key of V[x]'s low nibble, or raise where V[x] names no key (R170, R171, R173). -/
theorem execSkp_execSknp_leavesPc (x : Reg) (s : State) :
    s.LeavesPc (.skp x) (execSkp x s) ∧ s.LeavesPc (.sknp x) (execSknp x s) := by
  unfold execSkp execSknp
  obtain ⟨-, -, e⟩ | ⟨-, e⟩ := keyIndex_cases s.params.keyIndexPolicy (s.readV x) <;> rw [e]
  · exact ⟨s.leavesPc_raise _ _, s.leavesPc_raise _ _⟩
  · exact ⟨State.leavesPc_next (by simp [State.pcAfter, State.keyDown, lowNibble]),
      State.leavesPc_next (by simp [State.pcAfter, State.keyDown, lowNibble])⟩

/-- No key is chosen exactly where every key is up (R172). -/
theorem State.chooseKey_keysDown_eq_none {s : State} {draw : Nat} :
    chooseKey draw s.keysDown = none ↔ ∀ k : Reg, s.keys[k.val] = 0 := by
  rw [chooseKey_eq_none, List.eq_nil_iff_forall_not_mem]
  simp [State.mem_keysDown, State.keyDown]

/-- `LD Vx, K` stays where no key is down (R172). -/
theorem execLdVxK_leavesPc (x : Reg) (s : State) : s.LeavesPc (.ldVxK x) (execLdVxK x s) := by
  unfold execLdVxK
  split
  · next h => exact State.leavesPc_next (if_pos (State.chooseKey_keysDown_eq_none.mp h)).symm
  · next k h =>
    have hdown : ¬ ∀ k : Reg, s.keys[k.val] = 0 := fun hn => by
      rw [State.chooseKey_keysDown_eq_none.mpr hn] at h
      cases h
    exact State.leavesPc_next (if_neg hdown).symm

/-- Every instruction leaves `pc` as `pcAfter` has it, or raises: those with more than one outcome by their own lemmas, the memory
accesses by the range check, the rest at once. -/
theorem exec_leavesPc (i : Instr) (s : State) : s.LeavesPc i (exec i s) := by
  cases i with
  | ret => exact execRet_leavesPc s
  | sys addr => exact execSys_leavesPc addr s
  | call addr => exact execCall_leavesPc addr s
  | jpV0 addr => exact execJpV0_leavesPc addr s
  | skp x => exact (execSkp_execSknp_leavesPc x s).1
  | sknp x => exact (execSkp_execSknp_leavesPc x s).2
  | ldVxK x => exact execLdVxK_leavesPc x s
  | drw x y n => exact State.leavesPc_checkRange _ _ rfl
  | ldB x => exact State.leavesPc_checkRange _ _ (by simp [State.pcAfter])
  | storeRegs x => exact State.leavesPc_checkRange _ _ (by simp [State.pcAfter])
  | loadRegs x => exact State.leavesPc_checkRange _ _ rfl
  | seByte x kk | sneByte x kk => exact State.leavesPc_next (by simp [State.pcAfter])
  | seReg x y | sneReg x y => exact State.leavesPc_next (by simp [State.pcAfter])
  | _ => exact State.leavesPc_next rfl

/-- Settles O45: an answer of `exec` is a state with that `pc`, or the raise, which writes no `pc`. -/
theorem handlersSetPc : Obligations.HandlersSetPc := by
  intro i s t h
  obtain ⟨u, hu, hpc⟩ | ⟨f, hf⟩ := exec_leavesPc i s
  · obtain rfl : u = t := by rw [hu] at h; cases h; rfl
    exact .inl hpc
  · obtain rfl : s.raise f = t := by rw [hf] at h; cases h; rfl
    exact .inr ⟨rfl, f, rfl⟩

end Sys2Proof.Machine
end

section
/-! SUPPORT. Obligations of spec/40_control_flow.md (R110 to R119): clearing the screen, call and return, the jumps and the register
skips, with the frame rules of the updates they make. -/

namespace Sys2Proof.Machine

/-! ### Frames -/

theorem State.keepsBut_refl (s : State) (regs : List Reg) (parts : List Part) : s.KeepsBut s regs parts := by
  simp [State.KeepsBut]

/-- Frames compose: each element two transitions keep, the one after the other keeps. -/
theorem State.KeepsBut.trans {s t u : State} {regs : List Reg} {parts : List Part} (hst : s.KeepsBut t regs parts)
    (htu : t.KeepsBut u regs parts) : s.KeepsBut u regs parts := by
  unfold State.KeepsBut at *
  and_intros <;> grind

/-- `pc` is in no frame (R101). -/
theorem State.KeepsBut.setPc {s t : State} {regs : List Reg} {parts : List Part} (h : s.KeepsBut t regs parts) (v : Word) :
    s.KeepsBut (t.setPc v) regs parts := h

theorem State.keepsBut_setPc (s : State) (v : Word) : s.KeepsBut (s.setPc v) [] [] := (s.keepsBut_refl [] []).setPc v

theorem State.keepsBut_setStack (s : State) (slots : Vector Word 16) (sp : Fin 17) :
    s.KeepsBut (s.setStack slots sp) [] [.stack] := by
  simp [State.KeepsBut]

theorem State.keepsBut_logEvent (s : State) (e : Event) : s.KeepsBut (s.logEvent e) [] [.log] := by
  simp [State.KeepsBut]

theorem State.keepsBut_setFb_setDirty (s : State) (fb : FrameBuffer) (d : Bit) :
    s.KeepsBut ((s.setFb fb).setDirty d) [] [.pixels, .dirty] := by
  simp [State.KeepsBut]

/-- A logged event changes the log and `pc` only (R205). -/
theorem State.keepsBut_recover (s : State) (e : Event) : s.KeepsBut (s.recover e) [] [.log] :=
  (s.keepsBut_logEvent e).setPc _

/-- A skip changes `pc` only, whichever way it goes (R101). -/
theorem State.keepsBut_skipIf (s : State) (p : Bool) : s.KeepsBut (s.skipIf p) [] [] := by
  rw [State.skipIf_eq]
  exact s.keepsBut_setPc _

/-! ### Jump targets -/

@[simp] theorem targetOf_toNat (addr : Addr12) : (targetOf addr).toNat = addr.toNat := by
  rw [targetOf, BitVec.toNat_setWidth_of_le (by decide)]

/-- The word of `SYS addr` is its target, the opcode's top nibble being 0 (R112). -/
theorem encode_sys (addr : Addr12) : encode (.sys addr) = targetOf addr :=
  (BitVec.setWidth_eq_append (by decide)).symm

/-- An offset is added to a target without a mask to 12 bits (R119). -/
theorem targetOf_add_toNat (addr : Addr12) (v : Byte) :
    (targetOf addr + v.setWidth 16).toNat = (addr.toNat + v.toNat) % 65536 := by
  rw [BitVec.toNat_add, targetOf_toNat, BitVec.toNat_setWidth_of_le (by decide)]

theorem State.jumpOffset_of_v0 {s : State} (h : s.params.jumpOffsetReg = .v0) (addr : Addr12) :
    s.jumpOffset addr = s.readV 0 := by
  rw [State.jumpOffset, h]

theorem State.jumpOffset_of_vx {s : State} (h : s.params.jumpOffsetReg = .vx) {addr : Addr12} {r : Reg}
    (hr : r.val = addr.toNat / 256) : s.jumpOffset addr = s.readV r := by
  obtain rfl : offsetReg addr = r := Fin.ext (by rw [offsetReg_eq, hr])
  rw [State.jumpOffset, h]

/-! ### Call and return -/

/-- `CALL` below depth 16 (R28, R114). -/
theorem execCall_of_lt {s : State} (addr : Addr12) (h : s.sp.val < Config.stackDepth) :
    execCall addr s =
      .next ((s.setStack (s.stack.set s.sp.val s.pc) ⟨s.sp.val + 1, Nat.succ_lt_succ h⟩).setPc (targetOf addr)) := by
  rw [execCall, State.push_of_lt _ h]

/-- `CALL` at depth 16 (R28, R114). -/
theorem execCall_of_full {s : State} (addr : Addr12) (h : ¬ s.sp.val < Config.stackDepth) :
    execCall addr s = .next (s.recover (.stackOverflow s.pc)) := by
  rw [execCall, State.push_of_full _ h]

/-- `RET` above depth 0 (R29, R111). -/
theorem execRet_of_pos {s : State} (h : 0 < s.sp.val) :
    execRet s =
      .next ((s.setStack s.stack ⟨s.sp.val - 1, by have := s.sp.isLt; omega⟩).setPc
        (s.stack[s.sp.val - 1]'(by have := s.sp.isLt; omega) + 2)) := by
  rw [execRet, State.pop_of_pos h]

/-- `RET` at depth 0 (R29, R111). -/
theorem execRet_of_zero {s : State} (h : s.sp.val = 0) : execRet s = .next (s.recover (.stackUnderflow s.pc)) := by
  rw [execRet, State.pop_of_zero h]

/-- Settles O16: the push stores at the pointer alone, and at depth 16 the CALL recovers from the overflow. -/
theorem callPushesOrLogsOverflow : Obligations.CallPushesOrLogsOverflow := by
  intro s addr
  refine ⟨fun h => ?_, fun h => ?_⟩
  · refine ⟨_, execCall_of_lt addr h, targetOf_toNat addr, rfl, ?_, fun k hk hne => ?_,
      (s.keepsBut_setStack _ _).setPc _⟩
    · exact Vector.getElem_set_self h
    · exact Vector.getElem_set_ne h hk (Ne.symm hne)
  · exact ⟨_, execCall_of_full addr (by simp [h, Config.stackDepth]), rfl, rfl, s.keepsBut_recover _⟩

/-- Settles O15: the pop lowers the pointer alone, and at depth 0 the RET recovers from the underflow. -/
theorem retPopsOrLogsUnderflow : Obligations.RetPopsOrLogsUnderflow := by
  intro s
  refine ⟨fun h => ?_, fun h => ?_⟩
  · exact ⟨_, execRet_of_pos h, BitVec.toNat_add _ _, rfl, rfl, (s.keepsBut_setStack _ _).setPc _⟩
  · exact ⟨_, execRet_of_zero h, rfl, rfl, s.keepsBut_recover _⟩

/-- Settles O17: the RET pops the slot the CALL has stored, and both keep all but the stack. -/
theorem callThenRetComesBack : Obligations.CallThenRetComesBack := by
  intro s addr h
  obtain ⟨t, hcall, -, htsp, hslot, -, hst⟩ := (callPushesOrLogsOverflow s addr).1 h
  obtain ⟨u, hret, hupc, husp, -, htu⟩ := (retPopsOrLogsUnderflow t).1 (by omega)
  refine ⟨t, u, hcall, hret, BitVec.eq_of_toNat_eq ?_, Fin.ext (by omega), hst.trans htu⟩
  simp only [htsp, Nat.add_sub_cancel, hslot] at hupc
  rw [hupc, BitVec.toNat_add]
  rfl

/-! ### The screen, SYS and the jumps -/

/-- Settles O14: the frame buffer becomes the blank one, whose pixels are 0. -/
theorem clsClearsScreen : Obligations.ClsClearsScreen := fun s =>
  ⟨_, rfl, FrameBuffer.pixel_blank, rfl, rfl, (s.keepsBut_setFb_setDirty _ _).setPc _⟩

/-- Settles O18: SYS_MODE alone says whether SYS goes on, and the word the fault carries is the instruction's own. -/
theorem sysAdvancesOrFaults : Obligations.SysAdvancesOrFaults := by
  intro s addr
  refine ⟨fun h => ⟨s.advance, ?_, rfl, s.keepsBut_setPc _⟩, fun h => ?_⟩
  · simp only [exec, execSys, h]
  · simp only [exec, execSys, h, encode_sys]

/-- Settles O19: the target is the 12-bit address itself. -/
theorem jpSetsPc : Obligations.JpSetsPc := fun s addr =>
  ⟨_, rfl, targetOf_toNat addr, s.keepsBut_setPc _⟩

/-- Settles O20: the sum is reduced mod 65536 only, and JUMP_OFFSET_REG chooses the register of the offset. -/
theorem jpV0AddsOffset : Obligations.JpV0AddsOffset := by
  intro s addr
  refine ⟨_, rfl, s.keepsBut_setPc _, fun h => ?_, fun h r hr => ?_⟩
  · rw [← State.jumpOffset_of_v0 h addr]
    exact targetOf_add_toNat addr _
  · rw [← State.jumpOffset_of_vx h hr]
    exact targetOf_add_toNat addr _

/-! ### The register skips -/

/-- Where a skip's predicate decides `q`, `pc` moves by 4 if `q` holds and by 2 if not (R101). -/
theorem State.skipIf_pc_of_iff (s : State) {p : Bool} {q : Prop} [Decidable q] (h : p = true ↔ q) :
    (s.skipIf p).pc = s.pc + (if q then 4 else 2) := by
  rw [State.skipIf_eq, State.setPc_pc, if_congr h rfl rfl, apply_ite (s.pc + ·)]

theorem State.skipIf_beq_pc (s : State) (a b : Byte) :
    (s.skipIf (a == b)).pc = s.pc + (if a.toNat = b.toNat then 4 else 2) :=
  s.skipIf_pc_of_iff (by rw [beq_iff_eq, BitVec.toNat_inj])

theorem State.skipIf_bne_pc (s : State) (a b : Byte) :
    (s.skipIf (a != b)).pc = s.pc + (if a.toNat = b.toNat then 2 else 4) := by
  rw [s.skipIf_pc_of_iff (q := ¬ a.toNat = b.toNat) (by rw [bne_iff_ne, Ne, BitVec.toNat_inj]), ite_not]

/-- Settles O21: SE skips where its operands are equal and SNE where they differ, and a skip writes `pc` only. -/
theorem skipsAddFourOrTwo : Obligations.SkipsAddFourOrTwo := fun s _ _ _ =>
  ⟨⟨_, rfl, s.keepsBut_skipIf _, s.skipIf_beq_pc _ _⟩, ⟨_, rfl, s.keepsBut_skipIf _, s.skipIf_bne_pc _ _⟩,
    ⟨_, rfl, s.keepsBut_skipIf _, s.skipIf_beq_pc _ _⟩, ⟨_, rfl, s.keepsBut_skipIf _, s.skipIf_bne_pc _ _⟩⟩

end Sys2Proof.Machine
end

section
/-! SUPPORT. Obligations of spec/41_register_ops.md (R130 to R141): the frame of a register's write with and without a flag, and the
flags and results as numbers. -/

namespace Sys2Proof.Machine

/-! ### A register written, then the next instruction -/

theorem State.writeV_advance_readV (s : State) (x : Reg) (v : Byte) : (s.writeV x v).advance.readV x = v := by
  rw [State.advance_eq, State.setPc_readV, State.readV_writeV_same]

theorem State.keepsBut_writeV_advance (s : State) (x : Reg) (v : Byte) : s.KeepsBut (s.writeV x v).advance [x] [] := by
  refine State.KeepsBut.setPc ?_ _
  simp +contextual [State.KeepsBut]

/-- The flag is written last, so VF holds it even where x = F (R133). -/
theorem State.writeWithFlag_advance_readV_vf (s : State) (x : Reg) (v : Byte) (b : Bool) :
    (s.writeWithFlag x v b).advance.readV vf = flagByte b :=
  State.readV_writeV_same _ _ _

/-- The result stands in a destination other than VF (R133). -/
theorem State.writeWithFlag_advance_readV (s : State) {x : Reg} (v : Byte) (b : Bool) (h : x ≠ vf) :
    (s.writeWithFlag x v b).advance.readV x = v := by
  rw [State.advance_eq, State.setPc_readV, State.writeWithFlag_readV, if_neg h, if_pos rfl]

theorem State.keepsBut_writeWithFlag_advance (s : State) (x : Reg) (v : Byte) (b : Bool) :
    s.KeepsBut (s.writeWithFlag x v b).advance [x, vf] [] := by
  obtain ⟨regs, hregs⟩ := s.writeWithFlag_eq x v b
  have hread : ∀ r, r ∉ [x, vf] → (s.setV regs).readV r = s.readV r := fun r hr =>
    hregs ▸ s.writeWithFlag_readV_of_ne v b (by simpa using hr)
  rw [hregs]
  exact State.KeepsBut.setPc ⟨hread, by simp⟩ _

/-! ### Flags and results as numbers -/

theorem flagByte_toNat (b : Bool) : (flagByte b).toNat = b.toNat := by
  cases b <;> rfl

theorem flagByte_decide_toNat (p : Prop) [Decidable p] : (flagByte (decide p)).toNat = if p then 1 else 0 := by
  simp only [flagByte, decide_eq_true_eq]
  split <;> rfl

theorem flagByte_carry_toNat (a b : Byte) :
    (flagByte (carry a b)).toNat = if a.toNat + b.toNat > 255 then 1 else 0 :=
  flagByte_decide_toNat _

theorem flagByte_notBorrow_toNat (a b : Byte) :
    (flagByte (notBorrow a b)).toNat = if a.toNat > b.toNat then 1 else 0 :=
  flagByte_decide_toNat _

/-- A flag taken from a byte is the byte's bit as a number. -/
theorem flagByte_getLsbD_toNat (v : Byte) (k : Nat) : (flagByte (v.getLsbD k)).toNat = v.toNat / 2 ^ k % 2 := by
  rw [flagByte_toNat, ← BitVec.testBit_toNat, Nat.toNat_testBit]

theorem flagByte_shiftedOutRight_toNat (v : Byte) : (flagByte (shiftedOutRight v)).toNat = v.toNat % 2 := by
  rw [shiftedOutRight, flagByte_getLsbD_toNat, pow_zero, Nat.div_one]

/-- Bit 7 is the byte's highest. -/
theorem flagByte_shiftedOutLeft_toNat (v : Byte) : (flagByte (shiftedOutLeft v)).toNat = v.toNat / 128 := by
  have hv := v.isLt
  rw [shiftedOutLeft, flagByte_getLsbD_toNat]
  omega

/-- A difference of bytes is the integers' own, mod 256 (R138, R140). -/
theorem byte_sub_toNat (a b : Byte) : ((a - b).toNat : Int) = ((a.toNat : Int) - b.toNat) % 256 := by
  have hb := b.isLt
  rw [BitVec.toNat_sub]
  omega

theorem byte_shiftRight_one_toNat (v : Byte) : (v >>> 1).toNat = v.toNat / 2 := by
  rw [BitVec.toNat_ushiftRight, Nat.shiftRight_eq_div_pow, pow_one]

theorem byte_shiftLeft_one_toNat (v : Byte) : (v <<< 1).toNat = v.toNat * 2 % 256 := by
  rw [BitVec.toNat_shiftLeft, Nat.shiftLeft_eq, pow_one]

/-- SHIFT_SOURCE chooses the register a shift reads (R139, R141). -/
theorem State.shiftSource_eq {s : State} {x y : Reg} {v : Byte}
    (h : (s.params.shiftSource = .vx ∧ v = s.readV x) ∨ (s.params.shiftSource = .vy ∧ v = s.readV y)) :
    s.shiftSource x y = v := by
  obtain ⟨hp, rfl⟩ | ⟨hp, rfl⟩ := h <;> rw [State.shiftSource, hp]

/-! ### Operations that define no flag -/

/-- Settles O22: the register written holds the operand, or the byte sum, which is the sum mod 256. -/
theorem loadsAndAddByteWriteVxOnly : Obligations.LoadsAndAddByteWriteVxOnly := by
  intro s x y kk
  refine ⟨⟨_, rfl, s.writeV_advance_readV _ _, rfl, s.keepsBut_writeV_advance _ _⟩,
    ⟨_, rfl, ?_, rfl, s.keepsBut_writeV_advance _ _⟩,
    ⟨_, rfl, s.writeV_advance_readV _ _, rfl, s.keepsBut_writeV_advance _ _⟩⟩
  rw [State.writeV_advance_readV, BitVec.toNat_add]

/-- Settles O23: bit `k` of the register written is that bit of the operation on the two registers read before. -/
theorem bitwiseOpsBitByBit : Obligations.BitwiseOpsBitByBit := by
  intro s x y
  refine ⟨⟨_, rfl, rfl, s.keepsBut_writeV_advance _ _, fun k => ?_⟩,
    ⟨_, rfl, rfl, s.keepsBut_writeV_advance _ _, fun k => ?_⟩,
    ⟨_, rfl, rfl, s.keepsBut_writeV_advance _ _, fun k => ?_⟩⟩
  · rw [State.writeV_advance_readV, BitVec.getLsbD_or]
  · rw [State.writeV_advance_readV, BitVec.getLsbD_and]
  · rw [State.writeV_advance_readV, BitVec.getLsbD_xor]

/-! ### Flag writers -/

/-- The five operations of R137 to R141 as one: the result goes to V[x], then the flag to VF. The obligations give the result as a
number, natural or integer: `num` is the reading of a byte as one. -/
theorem exec_of_writeWithFlag {i : Instr} {s : State} {x : Reg} {v : Byte} {b : Bool} {α : Type} {result : α} {flag : Nat}
    (num : Byte → α) (h : exec i s = .next (s.writeWithFlag x v b).advance) (hv : num v = result)
    (hb : (flagByte b).toNat = flag) :
    ∃ t, exec i s = .next t ∧ t.pc = s.pc + 2 ∧ s.KeepsBut t [x, vf] [] ∧
      (x ≠ vf → num (t.readV x) = result) ∧ (t.readV vf).toNat = flag := by
  refine ⟨_, h, rfl, s.keepsBut_writeWithFlag_advance x v b, fun hx => ?_, ?_⟩
  · rw [s.writeWithFlag_advance_readV v b hx, hv]
  · rw [s.writeWithFlag_advance_readV_vf x v b, hb]

/-- Settles O24: the byte sum is the sum mod 256, and the carry says whether the sum exceeds 255. -/
theorem addRegSetsCarry : Obligations.AddRegSetsCarry := fun _ _ _ =>
  exec_of_writeWithFlag BitVec.toNat rfl (BitVec.toNat_add _ _) (flagByte_carry_toNat _ _)

/-- Settles O25: SUB and SUBN differ in the minuend only. -/
theorem subAndSubnSetNotBorrow : Obligations.SubAndSubnSetNotBorrow := fun _ _ _ =>
  ⟨exec_of_writeWithFlag (·.toNat : Byte → Int) rfl (byte_sub_toNat _ _) (flagByte_notBorrow_toNat _ _),
    exec_of_writeWithFlag (·.toNat : Byte → Int) rfl (byte_sub_toNat _ _) (flagByte_notBorrow_toNat _ _)⟩

/-- Settles O26: the result is the source's half or its double mod 256, and the flag its lowest or its highest bit. -/
theorem shiftsMoveOneBitToVf : Obligations.ShiftsMoveOneBitToVf := by
  intro s x y v h
  obtain rfl : s.shiftSource x y = v := State.shiftSource_eq h
  exact
    ⟨exec_of_writeWithFlag BitVec.toNat rfl (byte_shiftRight_one_toNat _) (flagByte_shiftedOutRight_toNat _),
      exec_of_writeWithFlag BitVec.toNat rfl (byte_shiftLeft_one_toNat _) (flagByte_shiftedOutLeft_toNat _)⟩

end Sys2Proof.Machine
end

section
/-! SUPPORT. Obligations of spec/42_memory_index.md (R150 to R155): the instructions that set I, the two that store bytes at
consecutive effective addresses, and the load of registers from them. -/

namespace Sys2Proof.Machine

/-! ### The index register -/

theorem State.keepsBut_setI (s : State) (v : Word) : s.KeepsBut (s.setI v) [] [.index] := by
  simp [State.KeepsBut]

/-- A byte is added to I mod 65536 (R151). -/
theorem index_add_byte_toNat (i : Word) (v : Byte) : (i + v.setWidth 16).toNat = (i.toNat + v.toNat) % 65536 := by
  rw [BitVec.toNat_add, BitVec.toNat_setWidth_of_le (by decide)]

/-- Even the glyph address of the byte 255 lies below 65536, so no reduction shows (R152). -/
theorem glyphAddress_toNat (v : Byte) : (glyphAddress v).toNat = 0x050 + 5 * v.toNat := by
  have hv := v.isLt
  rw [glyphAddress, BitVec.toNat_ofNat, Config.fontBase, Nat.mod_eq_of_lt (by omega)]

theorem State.indexAfter_of_unchanged {s : State} {x : Reg} (h : s.params.loadStoreIMode = .unchanged) :
    s.indexAfter x = s.I := by
  rw [State.indexAfter, h]

theorem State.indexAfter_toNat_of_increment {s : State} {x : Reg} (h : s.params.loadStoreIMode = .increment) :
    (s.indexAfter x).toNat = (s.I.toNat + x.val + 1) % 65536 := by
  rw [State.indexAfter, h, BitVec.toNat_add, BitVec.toNat_ofNat, Nat.add_mod_mod, Nat.add_assoc]

/-- Settles O28: each of the three instructions writes I alone, the targets below 65536 as they are and the sum mod 65536. -/
theorem indexInstructionsSetI : Obligations.IndexInstructionsSetI := fun s addr x =>
  ⟨⟨_, rfl, targetOf_toNat addr, rfl, s.keepsBut_setI _⟩,
    ⟨_, rfl, index_add_byte_toNat s.I (s.readV x), rfl, s.keepsBut_setI _⟩,
    ⟨_, rfl, glyphAddress_toNat (s.readV x), rfl, s.keepsBut_setI _⟩⟩

/-! ### Accesses whose addresses exist -/

/-- Where its addresses exist, an access passes the check (R57). -/
theorem State.InRange.checkRange_eq {s : State} {base n : Nat} (h : s.InRange base n) (done : State) :
    s.checkRange base n done = .next done :=
  State.checkRange_of_none done (State.inRange_iff.mp h)

/-- A write moves no place: an effective address names the same byte before and after it. -/
theorem State.writeBytes_read_place (s : State) (base e : Nat) (bs : List Byte) :
    (s.writeBytes base bs).mem.read (s.place e) = (s.writeBytes base bs).readByte e := by
  rw [State.readByte, State.writeBytes_params, State.place]

/-- A byte at the place of no address written is as before (R56). -/
theorem State.InRange.writeBytes_read_of_ne {s : State} {base a : Nat} {bs : List Byte} (h : s.InRange base bs.length)
    (hlen : bs.length ≤ Config.memSize) (ha : ∀ k, k < bs.length → a ≠ s.place (base + k)) :
    (s.writeBytes base bs).mem.read a = s.mem.read a := by
  obtain ⟨-, helse⟩ := s.read_writeBytes base bs.length bs rfl hlen fun _ hk => h.place_lt hk
  exact helse a ha

/-! ### Frames of several writes -/

/-- A frame that lets more change is weaker. -/
theorem State.KeepsBut.mono {s t : State} {regs regs' : List Reg} {parts parts' : List Part} (h : s.KeepsBut t regs parts)
    (hregs : regs ⊆ regs') (hparts : parts ⊆ parts') : s.KeepsBut t regs' parts' := by
  unfold State.KeepsBut at *
  and_intros <;> grind

/-- Writing bytes keeps every element but memory (R56). -/
theorem State.keepsBut_writeBytes (s : State) (e : Nat) (bs : List Byte) :
    s.KeepsBut (s.writeBytes e bs) [] [.memory] := by
  obtain ⟨m, hm, -⟩ := s.writeBytes_eq e bs
  rw [hm]
  exact s.keepsBut_setMem m

/-- The load keeps the registers above x (R155). -/
theorem State.keepsBut_setV_loadedRegs (s : State) (e : Nat) (x : Reg) :
    s.KeepsBut (s.setV (s.loadedRegs e x)) ((List.finRange 16).filter fun k => k.val ≤ x.val) [] := by
  refine ⟨fun r hr => s.setV_loadedRegs_readV_of_not_le e fun hle => hr ?_, by simp⟩
  exact List.mem_filter.mpr ⟨List.mem_finRange r, decide_eq_true hle⟩

/-- A write of I adds I to what a frame lets change. -/
theorem State.KeepsBut.setI {s t : State} {regs : List Reg} {parts : List Part} (h : s.KeepsBut t regs parts) (v : Word) :
    s.KeepsBut (t.setI v) regs (parts ++ [.index]) :=
  (h.mono (List.Subset.refl _) (List.subset_append_left _ _)).trans
    ((t.keepsBut_setI v).mono (List.nil_subset _) (List.subset_append_right _ _))

/-! ### The decimal digits -/

theorem bcdDigits_length_le (v : Byte) : (bcdDigits v).length ≤ Config.memSize := by
  simp [bcdDigits, Config.memSize]

/-- The digits of a byte as numbers: hundreds, tens, ones (R153). -/
theorem bcdDigits_getD_toNat (v : Byte) :
    ((bcdDigits v).getD 0 0).toNat = v.toNat / 100 ∧ ((bcdDigits v).getD 1 0).toNat = v.toNat / 10 % 10 ∧
      ((bcdDigits v).getD 2 0).toNat = v.toNat % 10 := by
  simp [bcdDigits]

/-- The digit written `k` bytes after the base is what the place of its effective address then holds (R153). -/
theorem State.writeBytes_bcdDigits_read_place {s : State} {base k : Nat} (h : s.InRange base 3) (v : Byte) (hk : k < 3) :
    (s.writeBytes base (bcdDigits v)).mem.read (s.place (base + k)) = (bcdDigits v).getD k 0 :=
  (s.writeBytes_read_place _ _ _).trans (State.writeBytes_readByte h (bcdDigits_length_le v) hk)

/-- Settles O29: the check passes, and the three digits are the bytes written from I. -/
theorem ldBStoresDigits : Obligations.LdBStoresDigits := by
  intro s x h
  obtain ⟨hundreds, tens, ones⟩ := bcdDigits_getD_toNat (s.readV x)
  have hread : ∀ k, k < 3 → ((s.writeBytes s.I.toNat (bcdDigits (s.readV x))).mem.read (s.place (s.I.toNat + k))).toNat =
      ((bcdDigits (s.readV x)).getD k 0).toNat := fun k hk =>
    congrArg BitVec.toNat (State.writeBytes_bcdDigits_read_place h _ hk)
  refine ⟨_, h.checkRange_eq _, (hread 0 (by decide)).trans hundreds, (hread 1 (by decide)).trans tens,
    (hread 2 (by decide)).trans ones, fun a ha => ?_, ?_, (s.keepsBut_writeBytes _ _).setPc _⟩
  · exact State.InRange.writeBytes_read_of_ne h (bcdDigits_length_le _) ha
  · rw [State.advance_eq, State.setPc_pc, State.writeBytes_pc]

/-! ### The registers stored and loaded -/

theorem State.firstRegs_length_le (s : State) (x : Reg) : (s.firstRegs x).length ≤ Config.memSize := by
  have hx := x.isLt
  rw [State.firstRegs_length, Config.memSize]
  omega

/-- Settles O30: the check passes, and V[0] to V[x] are the bytes written from I; LOADSTORE_I_MODE says what I becomes. -/
theorem storeRegsStoresV0ToVx : Obligations.StoreRegsStoresV0ToVx := by
  intro s x h
  have hlen := s.firstRegs_length x
  refine ⟨_, execStoreRegs_of_inRange h, fun k hk => ?_, fun a ha => ?_, State.indexAfter_of_unchanged,
    State.indexAfter_toNat_of_increment, ?_, ((s.keepsBut_writeBytes _ _).setI _).setPc _⟩
  · exact (s.writeBytes_read_place _ _ _).trans (State.writeBytes_firstRegs_readByte h hk)
  · exact State.InRange.writeBytes_read_of_ne (hlen ▸ h) (s.firstRegs_length_le x) fun k hk => ha k (by omega)
  · rw [State.advance_eq, State.setPc_pc, State.setI_pc, State.writeBytes_pc]

/-- Settles O31: the check passes, and V[0] to V[x] are read from I on; LOADSTORE_I_MODE says what I becomes. -/
theorem loadRegsLoadsV0ToVx : Obligations.LoadRegsLoadsV0ToVx := by
  intro s x h
  refine ⟨_, h.checkRange_eq _, fun k hk => ?_, State.indexAfter_of_unchanged, State.indexAfter_toNat_of_increment, rfl,
    ((s.keepsBut_setV_loadedRegs _ x).setI _).setPc _⟩
  exact (s.loadedRegs_getElem _ x k).trans (if_pos hk)

end Sys2Proof.Machine
end

section
/-! SUPPORT. Obligations of spec/43_random_display.md (R160 to R164): the random byte, the pixels a draw inverts and its collision
flag, and a sprite drawn twice. -/

namespace Sys2Proof.Machine

/-! ### The random byte -/

theorem State.keepsBut_drawn (s : State) : s.KeepsBut s.drawn [] [.draws] := by
  simp [State.KeepsBut]

/-- Settles O35: the register written holds the AND of the drawn byte and the immediate, bit by bit. -/
theorem rndMasksTheDrawnByte : Obligations.RndMasksTheDrawnByte := by
  intro s x kk
  refine ⟨_, rfl, fun k => ?_, rfl, rfl, ?_⟩
  · rw [State.advance_eq, State.setPc_readV, State.drawn_readV, State.readV_writeV_same, BitVec.getLsbD_and]
  · have hwrite := s.keepsBut_writeV_advance x (Config.randomByte s.draws &&& kk)
    exact (hwrite.mono (List.Subset.refl _) (List.nil_subset _)).trans
      ((State.keepsBut_drawn _).mono (List.nil_subset _) (List.Subset.refl _))

/-! ### What a draw inverts -/

/-- From the drawing `d` to `e` exactly the pixels of `P` were inverted, and a collision was noted exactly where one of them was
lit (R161, R164). -/
structure Drawing.Inverts (d e : Drawing) (P : Fin 64 → Fin 32 → Prop) : Prop where
  covered   : ∀ c r, P c r → e.fb.pixel c r = d.fb.pixel c r ^^^ 1
  uncovered : ∀ c r, ¬ P c r → e.fb.pixel c r = d.fb.pixel c r
  collides  : e.collision = true ↔ d.collision = true ∨ ∃ c r, P c r ∧ d.fb.pixel c r = 1

section Inverts

variable {d e f : Drawing} {P Q : Fin 64 → Fin 32 → Prop}

theorem Drawing.Inverts.congr (h : d.Inverts e P) (hPQ : ∀ c r, P c r ↔ Q c r) : d.Inverts e Q := by
  have : P = Q := funext fun c => funext fun r => propext (hPQ c r)
  exact this ▸ h

theorem Drawing.inverts_none (h : ∀ c r, ¬ P c r) : d.Inverts d P :=
  ⟨fun c r hP => absurd hP (h c r), fun _ _ _ => rfl, by simp [h]⟩

theorem Drawing.inverts_invert (d : Drawing) (c : Fin 64) (r : Fin 32) :
    d.Inverts (d.invert c r) (fun c' r' => c' = c ∧ r' = r) where
  covered := by
    rintro _ _ ⟨rfl, rfl⟩
    exact (d.fb.pixel_invert _ _ _ _).trans (if_pos ⟨rfl, rfl⟩)
  uncovered _ _ h := (d.fb.pixel_invert _ _ _ _).trans (if_neg h)
  collides := by simp [Drawing.invert]

/-- Inverting under a condition covers the pixel where the condition holds. -/
theorem Drawing.inverts_invert_if (d : Drawing) (c : Fin 64) (r : Fin 32) (p : Bool) :
    d.Inverts (if p then d.invert c r else d) (fun c' r' => (c' = c ∧ r' = r) ∧ p = true) := by
  cases p with
  | false => exact Drawing.inverts_none fun _ _ h => Bool.false_ne_true h.2
  | true => exact (d.inverts_invert c r).congr fun _ _ => (and_iff_left rfl).symm

/-- Draws that cover different pixels compose: the second finds the pixels it covers as they were before the first. -/
theorem Drawing.Inverts.trans (hde : d.Inverts e P) (hef : e.Inverts f Q) (hdisj : ∀ c r, P c r → ¬ Q c r) :
    d.Inverts f (fun c r => P c r ∨ Q c r) where
  covered := by
    rintro c r (hP | hQ)
    · rw [hef.uncovered c r (hdisj c r hP), hde.covered c r hP]
    · rw [hef.covered c r hQ, hde.uncovered c r fun hP => hdisj c r hP hQ]
  uncovered c r h := by
    rw [hef.uncovered c r fun hQ => h (.inr hQ), hde.uncovered c r fun hP => h (.inl hP)]
  collides := by
    have hbefore : (∃ c r, Q c r ∧ e.fb.pixel c r = 1) ↔ ∃ c r, Q c r ∧ d.fb.pixel c r = 1 :=
      exists₂_congr fun c r => and_congr_right fun hQ => by rw [hde.uncovered c r fun hP => hdisj c r hP hQ]
    simp only [hef.collides, hde.collides, hbefore, or_and_right, exists_or, or_assoc]

end Inverts

/-! ### One sprite byte -/

/-- One of the first `n` bits of a sprite byte, from bit 7 down, is 1 and lies over the pixel, for a byte drawn from column `x0` in
row `y` (R161, R162). -/
def BitsCover (x0 y : Nat) (b : Byte) (n : Nat) (c : Fin 64) (r : Fin 32) : Prop :=
  ∃ j, j < n ∧ c = columnAt (x0 + j) ∧ r = rowAt y ∧ b.getLsbD (7 - j) = true

theorem bitsCover_zero {x0 y : Nat} {b : Byte} (c : Fin 64) (r : Fin 32) : ¬ BitsCover x0 y b 0 c r :=
  fun ⟨_, hj, _⟩ => absurd hj (Nat.not_lt_zero _)

theorem bitsCover_succ {x0 y n : Nat} {b : Byte} {c : Fin 64} {r : Fin 32} :
    BitsCover x0 y b (n + 1) c r ↔
      BitsCover x0 y b n c r ∨ (c = columnAt (x0 + n) ∧ r = rowAt y) ∧ b.getLsbD (7 - n) = true := by
  rw [and_assoc]
  exact Nat.exists_lt_succ_right

/-- Columns fewer than 64 apart are different ones, though they wrap (R163). -/
theorem columnAt_ne {x0 j n : Nat} (hj : j < n) (hn : n < 64) : columnAt (x0 + j) ≠ columnAt (x0 + n) := by
  simp only [columnAt, ne_eq, Fin.mk.injEq]
  omega

/-- The drawing after the first `n` bits of a sprite byte, from bit 7 down (R161). -/
def Drawing.drawBits (d : Drawing) (x0 y : Nat) (b : Byte) (n : Nat) : Drawing :=
  (List.range n).foldl (fun d c => if b.getLsbD (7 - c) then d.invert (columnAt (x0 + c)) (rowAt y) else d) d

theorem Drawing.drawBits_eight (d : Drawing) (x0 y : Nat) (b : Byte) : d.drawBits x0 y b 8 = d.drawByte x0 y b := rfl

theorem Drawing.drawBits_succ (d : Drawing) (x0 y : Nat) (b : Byte) (n : Nat) :
    d.drawBits x0 y b (n + 1) =
      if b.getLsbD (7 - n) then (d.drawBits x0 y b n).invert (columnAt (x0 + n)) (rowAt y) else d.drawBits x0 y b n := by
  simp [Drawing.drawBits, List.range_succ]

theorem Drawing.inverts_drawBits (d : Drawing) (x0 y : Nat) (b : Byte) {n : Nat} (hn : n ≤ 8) :
    d.Inverts (d.drawBits x0 y b n) (BitsCover x0 y b n) := by
  induction n with
  | zero => exact Drawing.inverts_none bitsCover_zero
  | succ n ih =>
    have hbit := (d.drawBits x0 y b n).inverts_invert_if (columnAt (x0 + n)) (rowAt y) (b.getLsbD (7 - n))
    rw [Drawing.drawBits_succ]
    refine ((ih (by omega)).trans hbit ?_).congr fun _ _ => bitsCover_succ.symm
    rintro c r ⟨j, hj, rfl, -, -⟩ ⟨⟨hc, -⟩, -⟩
    exact columnAt_ne hj (by omega) hc

theorem Drawing.inverts_drawByte (d : Drawing) (x0 y : Nat) (b : Byte) :
    d.Inverts (d.drawByte x0 y b) (BitsCover x0 y b 8) :=
  d.drawBits_eight x0 y b ▸ d.inverts_drawBits x0 y b le_rfl

/-! ### A sprite -/

/-- Some byte of a sprite, one row down each, has a 1 bit over the pixel, for a sprite drawn from column `x0` and row `y` (R161). -/
def BytesCover (x0 y : Nat) (bs : List Byte) (c : Fin 64) (r : Fin 32) : Prop :=
  ∃ i b, bs[i]? = some b ∧ BitsCover x0 (y + i) b 8 c r

theorem bytesCover_nil {x0 y : Nat} (c : Fin 64) (r : Fin 32) : ¬ BytesCover x0 y [] c r := by
  simp [BytesCover]

theorem bytesCover_cons {x0 y : Nat} {b : Byte} {bs : List Byte} {c : Fin 64} {r : Fin 32} :
    BytesCover x0 y (b :: bs) c r ↔ BitsCover x0 y b 8 c r ∨ BytesCover x0 (y + 1) bs c r := by
  constructor
  · rintro ⟨_ | i, b', hb, hcover⟩
    · obtain rfl : b = b' := by simpa using hb
      exact .inl hcover
    · exact .inr ⟨i, b', by simpa using hb, by rwa [Nat.add_assoc, Nat.add_comm 1 i]⟩
  · rintro (hcover | ⟨i, b', hb, hcover⟩)
    · exact ⟨0, b, rfl, hcover⟩
    · exact ⟨i + 1, b', by simpa using hb, by rwa [Nat.add_assoc, Nat.add_comm 1 i] at hcover⟩

/-- Rows fewer than 32 apart are different ones, though they wrap (R163). -/
theorem rowAt_ne {y n : Nat} (h0 : 0 < n) (hn : n < 32) : rowAt y ≠ rowAt (y + n) := by
  simp only [rowAt, ne_eq, Fin.mk.injEq]
  omega

theorem Drawing.inverts_sprite (d : Drawing) (x0 y : Nat) {bs : List Byte} (hlen : bs.length ≤ 32) :
    d.Inverts (d.sprite x0 y bs) (BytesCover x0 y bs) := by
  induction bs generalizing d y with
  | nil => exact Drawing.inverts_none bytesCover_nil
  | cons b bs ih =>
    rw [List.length_cons] at hlen
    have hrest := ih (d.drawByte x0 y b) (y + 1) (by omega)
    refine ((d.inverts_drawByte x0 y b).trans hrest ?_).congr fun _ _ => bytesCover_cons.symm
    rintro c r ⟨-, -, -, rfl, -⟩ ⟨i, b', hb, -, -, -, hr, -⟩
    obtain ⟨hi, -⟩ := List.getElem?_eq_some_iff.mp hb
    exact rowAt_ne (n := 1 + i) (by omega) (by omega) (hr.trans (congrArg rowAt (Nat.add_assoc ..)))

/-! ### DRW -/

theorem State.readBytes_getElem?_eq_some {s : State} {e n i : Nat} {b : Byte} :
    (s.readBytes e n)[i]? = some b ↔ i < n ∧ s.readByte (e + i) = b := by
  simp [List.getElem?_eq_some_iff, State.readBytes_getElem]

/-- The pixels the statements say a sprite covers are those under the bytes it is drawn from (R161, R163). -/
theorem State.spriteCovers_iff {s : State} {x y : Reg} {n : Nibble} {c : Fin 64} {r : Fin 32} :
    s.SpriteCovers x y n c r ↔
      BytesCover ((s.readV x).toNat % 64) ((s.readV y).toNat % 32) (s.readBytes s.I.toNat n.toNat) c r := by
  simp only [State.SpriteCovers, BytesCover, BitsCover, State.readBytes_getElem?_eq_some, columnAt, rowAt, Fin.ext_iff]
  constructor
  · rintro ⟨i, j, hi, hcover⟩
    exact ⟨i, _, ⟨hi, rfl⟩, j, hcover⟩
  · rintro ⟨i, _, ⟨hi, rfl⟩, j, hcover⟩
    exact ⟨i, j, hi, hcover⟩

theorem State.inverts_spriteDrawn (s : State) (x y : Reg) (n : Nibble) :
    Drawing.Inverts ⟨s.fb, false⟩ (s.spriteDrawn x y n) (s.SpriteCovers x y n) := by
  have hlen : (s.readBytes s.I.toNat n.toNat).length ≤ 32 := by
    rw [State.readBytes_length]
    exact n.isLt.le.trans (by decide)
  exact (Drawing.inverts_sprite _ _ _ hlen).congr fun _ _ => State.spriteCovers_iff.symm

theorem State.keepsBut_setFb_setDirty_writeV_advance (s : State) (fb : FrameBuffer) (d : Bit) (x : Reg) (v : Byte) :
    s.KeepsBut (((s.setFb fb).setDirty d).writeV x v).advance [x] [.pixels, .dirty] :=
  ((s.keepsBut_setFb_setDirty fb d).mono (List.nil_subset _) (List.Subset.refl _)).trans
    ((State.keepsBut_writeV_advance _ x v).mono (List.Subset.refl _) (List.nil_subset _))

/-- Settles O36: the check passes, the drawing inverts the covered pixels, and its collision is the flag written to VF. -/
theorem drwInvertsCoveredPixels : Obligations.DrwInvertsCoveredPixels := by
  intro s x y n hrange
  have hdraw := s.inverts_spriteDrawn x y n
  have hcollides : (s.spriteDrawn x y n).collision = true ↔ ∃ c r, s.SpriteCovers x y n c r ∧ s.fb.pixel c r = 1 := by
    simpa using hdraw.collides
  refine ⟨_, hrange.checkRange_eq _, hdraw.covered, hdraw.uncovered, fun hlit => ?_, fun hnone => ?_, rfl, rfl,
    s.keepsBut_setFb_setDirty_writeV_advance _ _ _ _⟩
  · rw [State.writeV_advance_readV, hcollides.mpr hlit]
    rfl
  · rw [State.writeV_advance_readV, Bool.eq_false_iff.mpr (mt hcollides.mp hnone)]
    rfl

/-! ### The same sprite again -/

/-- Where the two coordinate registers, I and memory are kept, the sprite covers the same pixels. -/
theorem State.KeepsBut.spriteCovers_iff {s t : State} {regs : List Reg} {parts : List Part} {x y : Reg}
    (h : s.KeepsBut t regs parts) (hx : x ∉ regs) (hy : y ∉ regs) (hI : Part.index ∉ parts) (hmem : Part.memory ∉ parts)
    (n : Nibble) (c : Fin 64) (r : Fin 32) : t.SpriteCovers x y n c r ↔ s.SpriteCovers x y n c r := by
  obtain ⟨keepsV, keepsI, -, -, -, keepsMem, -, -, -, -, -, -, -, -, -, keepsParams, -⟩ := h
  have hbyte : ∀ e, t.readByte e = s.readByte e := fun e => by
    rw [State.readByte, State.readByte, keepsParams, keepsMem hmem]
  simp only [State.SpriteCovers, keepsV x hx, keepsV y hy, keepsI hI, hbyte]

theorem State.KeepsBut.inRange {s t : State} {regs : List Reg} {parts : List Part} {base n : Nat}
    (h : s.KeepsBut t regs parts) (hrange : s.InRange base n) : t.InRange base n := by
  obtain ⟨-, -, -, -, -, -, -, -, -, -, -, -, -, -, -, keepsParams, -⟩ := h
  rwa [State.InRange, keepsParams]

theorem bit_xor_one_xor_one (b : Bit) : b ^^^ 1 ^^^ 1 = b := by
  rw [BitVec.xor_assoc, BitVec.xor_self, BitVec.xor_zero]

/-- Settles O37: the second draw covers the same pixels, so it inverts each back, and it finds lit what the first one lit. -/
theorem drawTwiceErases : Obligations.DrawTwiceErases := by
  intro s x y n hx hy hrange
  obtain ⟨t, hst, covered₁, uncovered₁, -, -, -, -, hkeeps⟩ := drwInvertsCoveredPixels s x y n hrange
  have hcovers := hkeeps.spriteCovers_iff (by simpa using hx) (by simpa using hy) (by decide) (by decide) n
  have hI : t.I = s.I := by
    obtain ⟨-, keepsI, -⟩ := hkeeps
    exact keepsI (by decide)
  obtain ⟨u, htu, covered₂, uncovered₂, collides₂, -⟩ :=
    drwInvertsCoveredPixels t x y n (hI ▸ hkeeps.inRange hrange)
  refine ⟨t, u, hst, htu, FrameBuffer.ext_pixel fun c r => ?_, ?_⟩
  · by_cases hcr : s.SpriteCovers x y n c r
    · rw [covered₂ c r ((hcovers c r).mpr hcr), covered₁ c r hcr, bit_xor_one_xor_one]
    · rw [uncovered₂ c r (mt (hcovers c r).mp hcr), uncovered₁ c r hcr]
  · rintro ⟨c, r, hcr, hdark⟩
    exact collides₂ ⟨c, r, (hcovers c r).mpr hcr, by rw [covered₁ c r hcr, hdark]; rfl⟩

end Sys2Proof.Machine
end

section
/-! SUPPORT. Obligations of spec/44_input.md (R170 to R173): the key index of SKP and SKNP, the skips on a key's state, and the key
wait. -/

namespace Sys2Proof.Machine

/-! ### The key that a byte names -/

/-- A byte above 15 names no key under `Fault` (R173). -/
theorem keyIndex_eq_none {p : Config.KeyIndexPolicy} {v : Byte} (hp : p = .fault) (hv : 15 < v.toNat) :
    keyIndex p v = none := by
  obtain ⟨-, -, e⟩ | ⟨hmask | hle, -⟩ := keyIndex_cases p v
  · exact e
  · cases hp.symm.trans hmask
  · omega

/-- A byte that is at most 15, or masked, names the key of its low 4 bits (R173). -/
theorem keyIndex_eq_some {p : Config.KeyIndexPolicy} {v : Byte} {k : Reg} (h : p = .maskLow4 ∨ v.toNat ≤ 15)
    (hk : k.val = v.toNat % 16) : keyIndex p v = some k := by
  obtain rfl : lowNibble v = k := Fin.ext hk.symm
  obtain ⟨hfault, hv, -⟩ | ⟨-, e⟩ := keyIndex_cases p v
  · obtain hmask | hle := h
    · cases hfault.symm.trans hmask
    · omega
  · exact e

theorem State.keyDown_eq_true_iff {s : State} {k : Reg} : s.keyDown k = true ↔ s.keys[k.val] ≠ 0 := bne_iff_ne

theorem State.not_keyDown_eq_true_iff {s : State} {k : Reg} : (!s.keyDown k) = true ↔ s.keys[k.val] = 0 := by
  rw [Bool.not_eq_true', ← Bool.not_eq_true, State.keyDown_eq_true_iff, not_not]

/-! ### The skips on a key's state -/

/-- Settles O39: no key is named, and both instructions take the fault that carries V[x]. -/
theorem keyIndexAbove15Faults : Obligations.KeyIndexAbove15Faults := by
  intro s x hp hv
  have hnone := keyIndex_eq_none hp hv
  constructor
  · simp only [exec, execSkp, hnone]
  · simp only [exec, execSknp, hnone]

/-- Settles O38: the key named is `k`, and a skip on its state writes `pc` only. -/
theorem skpAndSknpTestTheKey : Obligations.SkpAndSknpTestTheKey := by
  intro s x k h hk
  have hkey := keyIndex_eq_some h hk
  refine ⟨⟨s.skipIf (s.keyDown k), ?_, s.keepsBut_skipIf _, ?_⟩, s.skipIf (!s.keyDown k), ?_, s.keepsBut_skipIf _, ?_⟩
  · simp only [exec, execSkp, hkey]
  · rw [s.skipIf_pc_of_iff State.keyDown_eq_true_iff, ite_not]
  · simp only [exec, execSknp, hkey]
  · exact s.skipIf_pc_of_iff State.not_keyDown_eq_true_iff

/-! ### The key wait -/

/-- With no key down the wait changes nothing (R172). -/
theorem execLdVxK_of_keys_up {s : State} (x : Reg) (h : ∀ k : Reg, s.keys[k.val] = 0) : execLdVxK x s = .next s := by
  rw [execLdVxK, State.chooseKey_keysDown_eq_none.mpr h]

/-- With a key down the wait ends with the number of a key that is down in V[x] (R172). -/
theorem execLdVxK_of_key_down {s : State} (x : Reg) (h : ∃ k : Reg, s.keys[k.val] ≠ 0) :
    ∃ k : Reg, s.keys[k.val] ≠ 0 ∧ execLdVxK x s = .next ((s.writeV x (BitVec.ofNat 8 k.val)).drawn).advance := by
  obtain ⟨j, hj⟩ := h
  have hsome : chooseKey s.draws s.keysDown ≠ none := fun hnone => hj (State.chooseKey_keysDown_eq_none.mp hnone j)
  obtain ⟨k, hk⟩ := Option.ne_none_iff_exists'.mp hsome
  exact ⟨k, State.keyDown_eq_true_iff.mp (State.mem_keysDown.mp (chooseKey_mem hk)), by rw [execLdVxK, hk]⟩

/-- A key number fits in a byte. -/
theorem keyByte_toNat (k : Reg) : (BitVec.ofNat 8 k.val).toNat = k.val := by
  rw [BitVec.toNat_ofNat, Nat.mod_eq_of_lt (by omega)]

theorem State.writeV_drawn_advance_readV (s : State) (x : Reg) (v : Byte) :
    (s.writeV x v).drawn.advance.readV x = v := by
  rw [State.advance_eq, State.setPc_readV, State.drawn_readV, State.readV_writeV_same]

theorem State.keepsBut_writeV_drawn_advance (s : State) (x : Reg) (v : Byte) :
    s.KeepsBut (s.writeV x v).drawn.advance [x] [.draws] :=
  ((s.keepsBut_writeV_advance x v).mono (List.Subset.refl _) (List.nil_subset _)).trans
    ((State.keepsBut_drawn _).mono (List.nil_subset _) (List.Subset.refl _))

/-- Settles O40: the wait chooses no key exactly where every key is up, and what it chooses is down. -/
theorem keyWaitPollsOrTakesADownKey : Obligations.KeyWaitPollsOrTakesADownKey := by
  refine fun s x => ⟨execLdVxK_of_keys_up x, fun h => ?_⟩
  obtain ⟨k, hdown, hexec⟩ := execLdVxK_of_key_down x h
  refine ⟨_, hexec, ⟨k, hdown, ?_⟩, rfl, s.keepsBut_writeV_drawn_advance _ _⟩
  rw [State.writeV_drawn_advance_readV, keyByte_toNat]

end Sys2Proof.Machine
end

section
/-! SUPPORT. The obligation of spec/45_timers.md (R180 to R182): the three timer instructions. -/

namespace Sys2Proof.Machine

theorem State.keepsBut_setDT (s : State) (v : Byte) : s.KeepsBut (s.setDT v) [] [.delayTimer] := by
  simp [State.KeepsBut]

theorem State.keepsBut_setST (s : State) (v : Byte) : s.KeepsBut (s.setST v) [] [.soundTimer] := by
  simp [State.KeepsBut]

/-- Settles O41: each instruction copies a byte into one register or timer, and the advance after it writes `pc` alone. -/
theorem timerInstructionsCopy : Obligations.TimerInstructionsCopy := fun s x =>
  ⟨⟨_, rfl, s.writeV_advance_readV x s.DT, rfl, s.keepsBut_writeV_advance x s.DT⟩,
    ⟨_, rfl, rfl, rfl, (s.keepsBut_setDT (s.readV x)).setPc _⟩,
    ⟨_, rfl, rfl, rfl, (s.keepsBut_setST (s.readV x)).setPc _⟩⟩

end Sys2Proof.Machine
end

section
/-! SUPPORT. The host around a program: an instruction and a CPU cycle do the same whatever host call is in progress and
whatever host actions are queued (R226, R237). -/

namespace Sys2Proof.Machine

/-! ### The state under another host -/

/-- The state with host call `c` in progress and `q` the host actions not yet taken. -/
def State.under (s : State) (c : Option Call) (q : List HostAction) : State := (s.setCall c).setInputs q

@[simp] theorem State.under_params (s : State) (c : Option Call) (q : List HostAction) : (s.under c q).params = s.params := rfl
@[simp] theorem State.under_status (s : State) (c : Option Call) (q : List HostAction) : (s.under c q).status = s.status := rfl
@[simp] theorem State.under_draws (s : State) (c : Option Call) (q : List HostAction) : (s.under c q).draws = s.draws := rfl
@[simp] theorem State.under_readV (s : State) (c : Option Call) (q : List HostAction) (r : Reg) :
    (s.under c q).readV r = s.readV r := rfl
@[simp] theorem State.under_keysDown (s : State) (c : Option Call) (q : List HostAction) :
    (s.under c q).keysDown = s.keysDown := rfl
@[simp] theorem State.under_fetchFault (s : State) (c : Option Call) (q : List HostAction) :
    (s.under c q).fetchFault = s.fetchFault := rfl
@[simp] theorem State.under_fetchWord (s : State) (c : Option Call) (q : List HostAction) :
    (s.under c q).fetchWord = s.fetchWord := rfl
@[simp] theorem State.setCall_under (s : State) (c d : Option Call) (q : List HostAction) :
    (s.setCall c).under d q = s.under d q := rfl

theorem State.under_eq_self {s : State} {c : Option Call} {q : List HostAction} (hc : s.call = c) (hq : s.inputs = q) :
    s.under c q = s := by
  subst hc hq
  rfl

theorem State.setCall_none_eq_self {s : State} (h : s.call = none) : s.setCall none = s := State.under_eq_self h rfl

/-- Between host calls another queue is the only difference. -/
theorem State.under_none {s : State} (h : s.call = none) (q : List HostAction) : s.under none q = s.setInputs q := by
  rw [State.under, State.setCall_none_eq_self h]

theorem State.skipIf_under (s : State) (p : Bool) (c : Option Call) (q : List HostAction) :
    (s.under c q).skipIf p = (s.skipIf p).under c q := by
  cases p <;> rfl

theorem State.writeBytes_under (s : State) (e : Nat) (bs : List Byte) (c : Option Call) (q : List HostAction) :
    (s.under c q).writeBytes e bs = (s.writeBytes e bs).under c q := by
  induction bs generalizing s e with
  | nil => rfl
  | cons b bs ih => exact ih (s.writeByte e b) (e + 1)

/-! ### Instructions and cycles -/

/-- `r` answers for `s` and `r'` for `s` under another host, and they agree: both complete, in states that differ in the host
alone, or both raise one fault. -/
def State.AnswersUnder (s : State) (c : Option Call) (q : List HostAction) (r r' : StepResult) : Prop :=
  (∃ t, r = .next t ∧ r' = .next (t.under c q) ∧ t.engine = s.engine) ∨
  ∃ f, r = .next (s.raise f) ∧ r' = .next ((s.under c q).raise f)

section AnswersUnder

variable {s t : State} {c : Option Call} {q : List HostAction}

theorem State.answersUnder_next (h : t.engine = s.engine) : s.AnswersUnder c q (.next t) (.next (t.under c q)) :=
  .inl ⟨t, rfl, rfl, h⟩

theorem State.answersUnder_raise (f : Fault) : s.AnswersUnder c q (.next (s.raise f)) (.next ((s.under c q).raise f)) :=
  .inr ⟨f, rfl, rfl⟩

theorem State.answersUnder_skipIf (p : Bool) :
    s.AnswersUnder c q (.next (s.skipIf p)) (.next ((s.under c q).skipIf p)) := by
  rw [State.skipIf_under]
  exact State.answersUnder_next (by simp)

theorem State.answersUnder_checkRange {base n : Nat} (h : t.engine = s.engine) :
    s.AnswersUnder c q (s.checkRange base n t) ((s.under c q).checkRange base n (t.under c q)) := by
  unfold State.checkRange
  rw [State.under_params]
  cases rangeFault s.params.addrPolicy base n with
  | some f => exact State.answersUnder_raise f
  | none => exact State.answersUnder_next h

theorem execRet_answersUnder : s.AnswersUnder c q (execRet s) (execRet (s.under c q)) := by
  by_cases h : s.sp.val = 0
  · rw [execRet, execRet, State.pop_of_zero h, State.pop_of_zero (s := s.under c q) h]
    exact State.answersUnder_next (t := s.recover _) (by simp)
  · have hpos : 0 < s.sp.val := by omega
    rw [execRet, execRet, State.pop_of_pos hpos, State.pop_of_pos (s := s.under c q) hpos]
    exact State.answersUnder_next (t := (s.setStack s.stack _).setPc _) (by simp)

theorem execSys_answersUnder (addr : Addr12) : s.AnswersUnder c q (execSys addr s) (execSys addr (s.under c q)) := by
  unfold execSys
  rw [State.under_params]
  cases s.params.sysMode with
  | nop => exact State.answersUnder_next (t := s.advance) (by simp)
  | fault => exact State.answersUnder_raise _

theorem execCall_answersUnder (addr : Addr12) : s.AnswersUnder c q (execCall addr s) (execCall addr (s.under c q)) := by
  by_cases h : s.sp.val < Config.stackDepth
  · rw [execCall, execCall, State.push_of_lt _ h, State.push_of_lt (s := s.under c q) _ h]
    exact State.answersUnder_next (t := (s.setStack _ _).setPc _) (by simp)
  · rw [execCall, execCall, State.push_of_full _ h, State.push_of_full (s := s.under c q) _ h]
    exact State.answersUnder_next (t := s.recover _) (by simp)

/-- SKP and SKNP test the key that V[x] names, or raise where it names none (R173). -/
theorem execSkp_execSknp_answersUnder (x : Reg) :
    s.AnswersUnder c q (execSkp x s) (execSkp x (s.under c q)) ∧
      s.AnswersUnder c q (execSknp x s) (execSknp x (s.under c q)) := by
  rw [execSkp, execSkp, execSknp, execSknp, State.under_params, State.under_readV]
  cases keyIndex s.params.keyIndexPolicy (s.readV x) with
  | none => exact ⟨State.answersUnder_raise _, State.answersUnder_raise _⟩
  | some k => exact ⟨State.answersUnder_skipIf _, State.answersUnder_skipIf _⟩

theorem execLdVxK_answersUnder (x : Reg) : s.AnswersUnder c q (execLdVxK x s) (execLdVxK x (s.under c q)) := by
  rw [execLdVxK, execLdVxK, State.under_draws, State.under_keysDown]
  cases chooseKey s.draws s.keysDown with
  | none => exact State.answersUnder_next rfl
  | some k => exact State.answersUnder_next (t := (s.writeV x _).drawn.advance) (by simp)

/-- The two instructions that store bytes store them alike, wherever the range check lets them (R57). -/
theorem State.answersUnder_checkRange_writeBytes {base n e : Nat} {bs : List Byte} (g : State → State)
    (hg : ∀ u : State, (g u).engine = u.engine) (hu : ∀ u : State, g (u.under c q) = (g u).under c q) :
    s.AnswersUnder c q (s.checkRange base n (g (s.writeBytes e bs)))
      ((s.under c q).checkRange base n (g ((s.under c q).writeBytes e bs))) := by
  rw [State.writeBytes_under, hu]
  exact State.answersUnder_checkRange (by rw [hg, State.writeBytes_engine])

/-- No instruction depends on the host around it, nor writes of it but by a raise (R11, R226): the raising ones check a range,
a key index or SYS_MODE, none of which the host is part of. -/
theorem exec_answersUnder (i : Instr) : s.AnswersUnder c q (exec i s) (exec i (s.under c q)) := by
  cases i with
  | ret => exact execRet_answersUnder
  | sys addr => exact execSys_answersUnder addr
  | call addr => exact execCall_answersUnder addr
  | skp x => exact (execSkp_execSknp_answersUnder x).1
  | sknp x => exact (execSkp_execSknp_answersUnder x).2
  | ldVxK x => exact execLdVxK_answersUnder x
  | seByte x kk | sneByte x kk => exact State.answersUnder_skipIf _
  | seReg x y | sneReg x y => exact State.answersUnder_skipIf _
  | drw x y nibble => exact State.answersUnder_checkRange (t := State.advance _) (by simp)
  | ldB x => exact State.answersUnder_checkRange_writeBytes State.advance (by simp) fun _ => rfl
  | storeRegs x =>
    exact State.answersUnder_checkRange_writeBytes (fun u => (u.setI (s.indexAfter x)).advance) (by simp) fun _ => rfl
  | loadRegs x => exact State.answersUnder_checkRange (t := State.advance _) (by simp)
  | _ => exact State.answersUnder_next (by simp)

/-- A CPU cycle does not depend on the host around it either: the fetch and its checks read the program's state alone (R90 to
R92). -/
theorem cycle_answersUnder (s : State) (c : Option Call) (q : List HostAction) :
    s.AnswersUnder c q (cycle s) (cycle (s.under c q)) := by
  rw [cycle, cycle, State.under_fetchFault, State.under_fetchWord]
  cases s.fetchFault with
  | some f => exact State.answersUnder_raise f
  | none =>
    cases decode s.fetchWord with
    | none => exact State.answersUnder_raise _
    | some i => exact exec_answersUnder i

end AnswersUnder

end Sys2Proof.Machine
end

section
/-! SUPPORT. Obligations of spec/60_exceptions.md: raising a fault (R203), the halted and the unloaded machine (R204, R250), the
host's moves (R226 to R229), the timers (R233), a host call as R234 gives it and as the machine's steps run it, and the cycle
counts of many calls (R231). -/

namespace Sys2Proof.Machine

/-! ### Faults and instructions -/

/-- Settles O9: `raise` sets the two fields and no other. -/
theorem raiseWritesStatusOnly : Obligations.RaiseWritesStatusOnly := fun _ _ => rfl

/-- Settles O43: an instruction that completes goes on, and so does one that raises. -/
theorem everyInstructionAnswersNext : Obligations.EveryInstructionAnswersNext := by
  intro i s
  obtain ⟨t, ht, -⟩ | ⟨f, hf⟩ := exec_completesOrRaises i s
  · exact ⟨t, ht⟩
  · exact ⟨_, hf⟩

/-! ### Between host calls -/

theorem step_of_call_none {s : State} (h : s.call = none) : step s = hostTurn s := by simp only [step, h]

theorem step_of_call {s : State} {c : Call} (h : s.call = some c) : step s = callStep c s := by simp only [step, h]

theorem hostTurn_of_action {s : State} {a : HostAction} {rest : List HostAction} (h : s.inputs = a :: rest) :
    hostTurn s = hostAction a (s.setInputs rest) := by
  simp only [hostTurn, h]

theorem hostTurn_of_empty {s : State} (h : s.inputs = []) : hostTurn s = idle s := by simp only [hostTurn, h]

/-- No host action but a load writes the status (R204, R227 to R230). -/
theorem hostAction_status {a : HostAction} {s t : State} (ha : ∀ src, a ≠ .loadRom src) (h : hostAction a s = .next t) :
    t.status = s.status := by
  cases a with
  | loadRom source => exact absurd rfl (ha source)
  | writeKeys keys =>
    simp only [hostAction] at h
    split at h <;> cases h
    rfl
  | readFrame =>
    simp only [hostAction] at h
    split at h <;> cases h
    rfl
  | hostCall ms =>
    obtain ⟨f, -, rfl⟩ | ⟨hz, -, -, rfl⟩ := hostCall_cases h
    · rfl
    · exact startCall_status hz ms s

/-- Before the first load every other host action is refused (R250). -/
theorem hostAction_of_unloaded {a : HostAction} {s : State} (hs : s.status = .unloaded) (ha : ∀ src, a ≠ .loadRom src) :
    hostAction a s = .refused .unloaded := by
  cases a with
  | loadRom source => exact absurd rfl (ha source)
  | writeKeys keys => exact if_pos hs
  | readFrame => exact if_pos hs
  | hostCall ms => simp only [hostAction, hostCall, hs]

/-- Settles O10: a halted machine runs no cycle, and the host action it takes, other than a load, leaves the status. -/
theorem haltedLeavesOnlyByLoad : Obligations.HaltedLeavesOnlyByLoad := by
  intro s f hs
  refine ⟨fun hc hq => ?_, fun ms => ?_, fun t hload h => ?_⟩
  · rw [step_of_call_none hc, hostTurn_of_empty hq]
    simp only [idle, hs]
  · simp only [hostCall, hs]
  · obtain ⟨-, -, hrun, -⟩ | ⟨a, rest, -, hq, ha⟩ | ⟨c, -, hrun, -⟩ := step_cases h
    · exact absurd hs (hrun f)
    · exact (hostAction_status (fun src e => hload src rest (e ▸ hq)) ha).trans hs
    · cases hs.symm.trans hrun

/-- Settles O11: each of the moves asks for the status first. -/
theorem unloadedMovesOnlyByLoad : Obligations.UnloadedMovesOnlyByLoad := by
  intro s hs
  have hcall : ∀ c, s.call = some c → step s = .refused .unloaded := fun c hc => by
    rw [step_of_call hc]
    simp only [callStep, hs]
  refine ⟨fun a rest hq ha => ?_, fun hc => ?_, fun hc hq => ?_⟩
  · cases hc : s.call with
    | none => rw [step_of_call_none hc, hostTurn_of_action hq, hostAction_of_unloaded (s := s.setInputs rest) hs ha]
    | some c => exact hcall c hc
  · obtain ⟨c, hc⟩ := Option.ne_none_iff_exists'.mp hc
    exact hcall c hc
  · rw [step_of_call_none hc, hostTurn_of_empty hq]
    simp only [idle, hs]

/-- A cycle writes neither the queue nor the key state (R226, R263). -/
theorem cycle_inputs_keys {s t : State} (h : cycle s = .next t) : t.inputs = s.inputs ∧ t.keys = s.keys := by
  obtain he | ⟨f, rfl⟩ := (cycle_completesOrRaises s).cases h
  · exact ⟨congrArg Engine.inputs he, congrArg Engine.keys he⟩
  · exact ⟨rfl, rfl⟩

/-- Settles O48: the step between calls is the host's turn, and during a call a cycle or the call's end. -/
theorem stepTakesQueuedHostAction : Obligations.StepTakesQueuedHostAction := by
  refine fun s => ⟨fun a rest hc hq => ?_, fun hc hq hs => ?_, fun c t hc h => ?_⟩
  · rw [step_of_call_none hc, hostTurn_of_action hq]
  · rw [step_of_call_none hc, hostTurn_of_empty hq]
    cases h : s.status with
    | halted f => exact absurd h (hs f)
    | _ => simp only [idle, h]
  · obtain ⟨hn, -⟩ | ⟨a, rest, hn, -⟩ | ⟨d, -, -, ⟨-, hd⟩ | ⟨-, rfl⟩ | ⟨-, rfl⟩⟩ := step_cases h
    · cases hc.symm.trans hn
    · cases hc.symm.trans hn
    · exact cycle_inputs_keys (s := s.setCall d.afterCpu) hd
    · exact ⟨rfl, rfl⟩
    · exact ⟨rfl, rfl⟩

/-- Settles O54: on a loaded machine the two moves are their updates, and what the host reads is a function of the state. -/
theorem keyWriteAndFrameRead : Obligations.KeyWriteAndFrameRead := fun _ _ hs =>
  ⟨⟨_, if_neg hs, rfl⟩, ⟨_, if_neg hs, rfl⟩, rfl, decide_eq_true_iff⟩

/-! ### Timer cycles -/

theorem State.keepsBut_timerCycle (s : State) : s.KeepsBut s.timerCycle [] [.delayTimer, .soundTimer] :=
  ((s.keepsBut_setDT _).mono (List.nil_subset _) (by simp)).trans
    ((State.keepsBut_setST _ _).mono (List.nil_subset _) (by simp))

/-- Settles O42: by induction on the number of cycles, each of which takes 1 off a timer above 0. -/
theorem timerCyclesCountDown : Obligations.TimerCyclesCountDown := by
  intro n
  induction n with
  | zero => exact fun s => ⟨rfl, rfl, rfl, s.keepsBut_refl _ _⟩
  | succ n ih =>
    intro s
    obtain ⟨hDT, hST, hpc, hkeeps⟩ := ih s.timerCycle
    refine ⟨?_, ?_, hpc, s.keepsBut_timerCycle.trans hkeeps⟩
    · rw [runTimers, hDT, show s.timerCycle.DT = countDown s.DT from rfl, countDown_toNat, Nat.sub_sub, Nat.add_comm]
    · rw [runTimers, hST, show s.timerCycle.ST = countDown s.ST from rfl, countDown_toNat, Nat.sub_sub, Nat.add_comm]

/-! ### The two blocks -/

theorem runCpu_zero (s : State) : runCpu 0 s = .next s := rfl

theorem runCpu_succ {s t : State} (n : Nat) (hs : s.status = .running) (h : cycle s = .next t) :
    runCpu (n + 1) s = runCpu n t := by
  simp only [runCpu, hs, h]

/-- The CPU block runs nothing on an engine that is not running (R38, R204). -/
theorem runCpu_of_not_running (n : Nat) {s : State} (h : s.status ≠ .running) : runCpu n s = .next s := by
  cases n with
  | zero => rfl
  | succ n =>
    cases hs : s.status with
    | running => exact absurd hs h
    | _ => simp only [runCpu, hs]

@[simp] theorem runTimers_status (n : Nat) (s : State) : (runTimers n s).status = s.status :=
  congrArg Engine.status (runTimers_engine n s)

theorem runCpuFirst_of_running {n : Nat} {s t : State} (m : Nat) (h : runCpu n s = .next t) (ht : t.status = .running) :
    runCpuFirst n m s = .next (runTimers m t) := by
  simp only [runCpuFirst, h, if_pos ht]

/-- A fault in the CPU block leaves the timer block unrun (R208). -/
theorem runCpuFirst_of_not_running {n : Nat} {s t : State} (m : Nat) (h : runCpu n s = .next t) (ht : t.status ≠ .running) :
    runCpuFirst n m s = .next t := by
  simp only [runCpuFirst, h, if_neg ht]

/-- The two blocks of a call, in its order (R232, R234). -/
def Call.runBlocks (c : Call) (s : State) : StepResult :=
  if c.timersFirst then runTimersFirst c.cpu c.tmr s else runCpuFirst c.cpu c.tmr s

theorem Call.runBlocks_of_timersFirst {c : Call} (h : c.timersFirst = true) (s : State) :
    c.runBlocks s = runTimersFirst c.cpu c.tmr s := if_pos h

theorem Call.runBlocks_of_cpuFirst {c : Call} (h : c.timersFirst = false) (s : State) :
    c.runBlocks s = runCpuFirst c.cpu c.tmr s := if_neg (by rw [h]; decide)

/-- With no timer block before its CPU block, a call of timers first has no timer cycle left (R232). -/
theorem Call.tmr_eq_zero {c : Call} (h : c.timersFirst = false ∨ c.tmr = 0) (hf : c.timersFirst = true) : c.tmr = 0 :=
  h.resolve_left (by rw [hf]; decide)

theorem finishCall_of_call {s : State} {c : Call} (h : s.call = some c) : finishCall s = c.runBlocks (s.setCall none) := by
  simp only [finishCall, h, Call.runBlocks]

theorem finishCall_of_none {s : State} (h : s.call = none) : finishCall s = .next s := by
  simp only [finishCall, h]

/-- With no cycle left the blocks do nothing. -/
theorem Call.runBlocks_of_done {c : Call} (h : c.cpu + c.tmr = 0) (s : State) : c.runBlocks s = .next s := by
  obtain ⟨hcpu, htmr⟩ : c.cpu = 0 ∧ c.tmr = 0 := by omega
  simp [Call.runBlocks, runTimersFirst, runCpuFirst, runCpu, runTimers, hcpu, htmr]

/-- With no timer block before its CPU block, a halted engine runs nothing more of the call (R204, R208). -/
theorem Call.runBlocks_of_not_running {c : Call} {s : State} (hs : s.status ≠ .running)
    (hc : c.timersFirst = false ∨ c.tmr = 0) : c.runBlocks s = .next s := by
  cases hf : c.timersFirst with
  | false =>
    rw [Call.runBlocks_of_cpuFirst hf]
    exact runCpuFirst_of_not_running _ (runCpu_of_not_running _ hs) hs
  | true =>
    rw [Call.runBlocks_of_timersFirst hf, Call.tmr_eq_zero hc hf]
    exact runCpu_of_not_running _ hs

/-- Where the CPU's turn is next the blocks begin with a CPU cycle (R232, R234). -/
theorem Call.runBlocks_of_cpuTurn {c : Call} {s t : State} (hturn : c.turn = .cpu) (hs : s.status = .running)
    (h : cycle s = .next t) : c.runBlocks s = Call.runBlocks { c with cpu := c.cpu - 1 } t := by
  obtain ⟨hpos, hfirst⟩ := Call.turn_eq_cpu.mp hturn
  have hcpu : runCpu c.cpu s = runCpu (c.cpu - 1) t := by
    rw [← runCpu_succ _ hs h, Nat.sub_add_cancel hpos]
  rcases Bool.eq_false_or_eq_true c.timersFirst with hf | hf
  · rw [Call.runBlocks_of_timersFirst hf, Call.runBlocks_of_timersFirst (c := { c with cpu := c.cpu - 1 }) hf]
    simp only [runTimersFirst, Call.tmr_eq_zero hfirst hf, runTimers, hcpu]
  · rw [Call.runBlocks_of_cpuFirst hf, Call.runBlocks_of_cpuFirst (c := { c with cpu := c.cpu - 1 }) hf]
    simp only [runCpuFirst, hcpu]

/-- Where the timers' turn is next the blocks begin with a timer cycle (R232, R234). -/
theorem Call.runBlocks_of_timerTurn {c : Call} {s : State} (hturn : c.turn = .timer) (hs : s.status = .running) :
    c.runBlocks s = Call.runBlocks { c with tmr := c.tmr - 1 } s.timerCycle := by
  obtain ⟨hpos, hfirst⟩ := Call.turn_eq_timer.mp hturn
  have htmr : runTimers c.tmr s = runTimers (c.tmr - 1) s.timerCycle := by
    rw [← runTimers, Nat.succ_eq_add_one, Nat.sub_add_cancel hpos]
  rcases Bool.eq_false_or_eq_true c.timersFirst with hf | hf
  · rw [Call.runBlocks_of_timersFirst hf, Call.runBlocks_of_timersFirst (c := { c with tmr := c.tmr - 1 }) hf]
    simp only [runTimersFirst, htmr]
  · have hcpu : c.cpu = 0 := hfirst.resolve_left (by rw [hf]; decide)
    rw [Call.runBlocks_of_cpuFirst hf, Call.runBlocks_of_cpuFirst (c := { c with tmr := c.tmr - 1 }) hf, hcpu,
      runCpuFirst_of_running _ (runCpu_zero s) hs, runCpuFirst_of_running _ (runCpu_zero s.timerCycle) hs, htmr]

/-! ### The steps of a host call -/

theorem coreRun_succ {M : Host.Core} {s t : M.State} (k : Nat) (h : M.step s = .next t) : M.run (k + 1) s = M.run k t := by
  simp only [Host.Core.run, h]

theorem run_succ {s t : State} (k : Nat) (h : step s = .next t) : core.run (k + 1) s = core.run k t := coreRun_succ k h

theorem Call.orDone_of_pos {c : Call} (h : 0 < c.cpu + c.tmr) : c.orDone = some c := Call.orDone_eq_some.mpr ⟨rfl, h⟩

theorem Call.orDone_of_done {c : Call} (h : c.cpu + c.tmr = 0) : c.orDone = none :=
  Call.orDone_eq_none.mpr (by omega)

/-- A call with a cycle left has a turn next (R232). -/
theorem Call.turn_of_pos {c : Call} (h : 0 < c.cpu + c.tmr) : c.turn = .cpu ∨ c.turn = .timer := by
  rw [Call.turn_eq_cpu, Call.turn_eq_timer]
  cases c.timersFirst with
  | false => simp; omega
  | true => simp; omega

/-- A step of a running engine whose next turn is the timers' is one timer cycle (R226, R232). -/
theorem step_of_timerTurn {s : State} {c : Call} (hs : s.status = .running) (hc : s.call = some c) (ht : c.turn = .timer) :
    step s = .next (s.setCall c.afterTimer).timerCycle := by
  simp only [step, hc, callStep, hs, runTurn, ht]

/-- The machine's steps run a call to the end its blocks come to, under any queue: one step a cycle, fewer only where a fatal
fault ends the call (R208, R234). -/
theorem run_call (n : Nat) (s : State) (c : Call) (q : List HostAction) (hs : s.status = .running) (hn : c.cpu + c.tmr = n) :
    ∃ k u, k ≤ n ∧ core.run k (s.under c.orDone q) = .next (u.under none q) ∧ c.runBlocks s = .next u ∧
      (u.status = .running → k = n) := by
  induction n generalizing s c with
  | zero =>
    rw [Call.orDone_of_done hn]
    exact ⟨0, s, le_rfl, rfl, Call.runBlocks_of_done hn s, fun _ => rfl⟩
  | succ n ih =>
    have hpos : 0 < c.cpu + c.tmr := by omega
    rw [Call.orDone_of_pos hpos]
    rcases Call.turn_of_pos hpos with hturn | hturn
    · obtain ⟨hcpu, hfirst⟩ := Call.turn_eq_cpu.mp hturn
      have hstep : step (s.under (some c) q) = cycle (s.under c.afterCpu q) := step_of_cpuTurn hs rfl hturn
      obtain ⟨t, ht, htu, he⟩ | ⟨f, hf, hfu⟩ := cycle_answersUnder s c.afterCpu q
      · obtain ⟨k, u, hk, hrun, hblocks, hall⟩ := ih t { c with cpu := c.cpu - 1 }
          ((congrArg Engine.status he).trans hs) (show c.cpu - 1 + c.tmr = n by omega)
        refine ⟨k + 1, u, by omega, ?_, ?_, fun hu => by rw [hall hu]⟩
        · rw [run_succ k (hstep.trans htu)]
          exact hrun
        · rw [Call.runBlocks_of_cpuTurn hturn hs ht, hblocks]
      · have hhalted : (s.raise f).status ≠ .running := by simp
        refine ⟨1, s.raise f, by omega, ?_, ?_, fun hu => absurd hu hhalted⟩
        · rw [run_succ 0 (hstep.trans hfu)]
          rfl
        · rw [Call.runBlocks_of_cpuTurn hturn hs hf]
          exact Call.runBlocks_of_not_running hhalted hfirst
    · obtain ⟨htmr, -⟩ := Call.turn_eq_timer.mp hturn
      have hstep : step (s.under (some c) q) = .next (s.timerCycle.under c.afterTimer q) := step_of_timerTurn hs rfl hturn
      obtain ⟨k, u, hk, hrun, hblocks, hall⟩ := ih s.timerCycle { c with tmr := c.tmr - 1 } hs
        (show c.cpu + (c.tmr - 1) = n by omega)
      refine ⟨k + 1, u, by omega, ?_, ?_, fun hu => by rw [hall hu]⟩
      · rw [run_succ k hstep]
        exact hrun
      · rw [Call.runBlocks_of_timerTurn hturn hs, hblocks]

/-- Settles O50: the clauses on the blocks are their equations, and the steps of a call in progress are those of `run_call`. -/
theorem blocksRunTheirCycles : Obligations.BlocksRunTheirCycles := by
  refine fun n m s t => ⟨runCpu_zero s, runCpu_succ n, runCpu_of_not_running n, runCpuFirst_of_running m,
    runCpuFirst_of_not_running m, rfl, fun c hc hs hpos => ?_⟩
  obtain ⟨k, u, hk, hrun, hblocks, hall⟩ := run_call _ (s.setCall none) c s.inputs hs rfl
  have hfinish : finishCall s = .next u := (finishCall_of_call hc).trans hblocks
  obtain ⟨u', st, hu', he⟩ := finishCall_between s
  obtain rfl : u = u' := by simpa [hfinish] using hu'
  have hcall : u.call = none := congrArg Engine.call he
  have hinputs : u.inputs = s.inputs := congrArg Engine.inputs he
  rw [Call.orDone_of_pos hpos, State.setCall_under, State.under_eq_self hc rfl, State.under_eq_self hcall hinputs] at hrun
  exact ⟨k, u, hk, hrun, hfinish, hcall, hall⟩

/-! ### A host call from its start -/

/-- The cycles a host call counts and the block order it settles (R231, R232). -/
def State.counted (s : State) (hz ms : Nat) : Call where
  cpu := wholeCycles (accumulate s.accCpu ms hz)
  tmr := wholeCycles (accumulate s.accTmr ms Config.timerHz)
  timersFirst := s.timersFirst

/-- The state from which a host call runs the cycles it has counted: the remainders kept, the block order settled (R231, R232). -/
def State.accounted (s : State) (hz ms : Nat) : State :=
  (s.orderSettled.setAcc (fractionLeft (accumulate s.accCpu ms hz))
    (fractionLeft (accumulate s.accTmr ms Config.timerHz))).setCall none

theorem startCall_eq (s : State) (hz ms : Nat) : startCall hz ms s = (s.accounted hz ms).setCall (s.counted hz ms).orDone := rfl

theorem hostCall_of_running {s : State} {hz : Nat} (ms : Nat) (hs : s.status = .running)
    (hclock : s.params.cpuClockHz = some hz) : hostCall ms s = .next (startCall hz ms s) := by
  simp only [hostCall, hs, hclock]

/-- A started call ends where the blocks of what it has counted do, a call with no cycle to run at once. -/
theorem finishCall_setCall_orDone (c : Call) (s : State) (h : s.call = none) :
    finishCall (s.setCall c.orDone) = c.runBlocks s := by
  rcases Nat.eq_zero_or_pos (c.cpu + c.tmr) with h0 | hpos
  · rw [Call.orDone_of_done h0, State.setCall_none_eq_self h, finishCall_of_none h, Call.runBlocks_of_done h0]
  · rw [Call.orDone_of_pos hpos, finishCall_of_call rfl]
    exact congrArg c.runBlocks (State.setCall_none_eq_self h)

/-- A running engine's host call is the blocks of the cycles it counts (R234). -/
theorem wholeCall_of_running {s : State} {hz : Nat} (ms : Nat) (hs : s.status = .running)
    (hclock : s.params.cpuClockHz = some hz) :
    wholeCall ms s = (s.counted hz ms).runBlocks (s.accounted hz ms) := by
  simp only [wholeCall, hostCall_of_running ms hs hclock, startCall_eq, finishCall_setCall_orDone _ (s.accounted hz ms) rfl]

/-- Settles O49: under each order the call's blocks are one of R234's two, from the state with the remainders kept. -/
theorem hostCallRunsBothBlocks : Obligations.HostCallRunsBothBlocks := by
  intro s ms hz hs hclock
  rw [wholeCall_of_running ms hs hclock]
  refine ⟨fun ho => ?_, fun ho => ?_, fun ho => ?_⟩
  · rw [Call.runBlocks_of_cpuFirst (by simp only [State.counted, State.timersFirst, ho])]
    simp only [State.accounted, State.orderSettled, ho]
    rfl
  · rw [Call.runBlocks_of_timersFirst (by simp only [State.counted, State.timersFirst, ho])]
    simp only [State.accounted, State.orderSettled, ho]
    rfl
  · have hdrawn : s.orderSettled = s.drawn := by simp only [State.orderSettled, ho]
    simp only [State.accounted, hdrawn]
    rcases Bool.eq_false_or_eq_true (s.counted hz ms).timersFirst with hf | hf
    · rw [Call.runBlocks_of_timersFirst hf]
      exact .inr rfl
    · rw [Call.runBlocks_of_cpuFirst hf]
      exact .inl rfl

/-! ### Many host calls -/

theorem coreRun_add {M : Host.Core} {s t : M.State} {k : Nat} (n : Nat) (h : M.run k s = .next t) :
    M.run (k + n) s = M.run n t := by
  induction k generalizing s with
  | zero => cases h; rw [Nat.zero_add]
  | succ k ih =>
    cases hstep : M.step s with
    | next u =>
      rw [coreRun_succ k hstep] at h
      rw [Nat.add_right_comm, coreRun_succ _ hstep, ih h]
    | fault f => simp [Host.Core.run, hstep] at h
    | refused r => simp [Host.Core.run, hstep] at h

/-- The rest of a call leaves the status of an engine that is not running (R204). -/
theorem finishCall_status_of_not_running {s t : State} (hs : s.status ≠ .running) (h : finishCall s = .next t) :
    t.status = s.status := by
  cases hc : s.call with
  | none =>
    rw [finishCall_of_none hc] at h
    cases h
    rfl
  | some c =>
    rw [finishCall_of_call hc] at h
    rcases Bool.eq_false_or_eq_true c.timersFirst with hf | hf
    · have hstatus : (runTimers c.tmr (s.setCall none)).status = s.status := runTimers_status _ _
      rw [Call.runBlocks_of_timersFirst hf, runTimersFirst, runCpu_of_not_running _ (hstatus ▸ hs)] at h
      cases h
      exact hstatus
    · rw [Call.runBlocks_of_not_running (s := s.setCall none) hs (.inl hf)] at h
      cases h
      rfl

/-- An engine that runs after a host call ran before it (R204, R250). -/
theorem running_of_wholeCall {ms : Nat} {s t : State} (h : wholeCall ms s = .next t) (ht : t.status = .running) :
    s.status = .running := by
  cases hh : hostCall ms s with
  | next u =>
    simp only [wholeCall, hh] at h
    obtain ⟨f, -, rfl⟩ | ⟨hz, hs, -, -⟩ := hostCall_cases hh
    · by_contra hs
      exact hs ((finishCall_status_of_not_running hs h).symm.trans ht)
    · exact hs
  | _ => simp [wholeCall, hh] at h

theorem runCalls_cons {ms : Nat} {rest : List Nat} {s t : State} (h : runCalls (ms :: rest) s = .next t) :
    ∃ u, wholeCall ms s = .next u ∧ runCalls rest u = .next t := by
  cases hw : wholeCall ms s with
  | next u => exact ⟨u, rfl, by simpa only [runCalls, hw] using h⟩
  | _ => simp [runCalls, hw] at h

theorem running_of_runCalls {calls : List Nat} {s t : State} (h : runCalls calls s = .next t) (ht : t.status = .running) :
    s.status = .running := by
  induction calls generalizing s with
  | nil => cases h; exact ht
  | cons ms rest ih =>
    obtain ⟨u, hu, hrest⟩ := runCalls_cons h
    exact running_of_wholeCall hu (ih hrest)

/-- What a host call of a running engine leaves around the program (R226, R231). -/
theorem wholeCall_leaves {ms hz : Nat} {s t : State} (hs : s.status = .running) (hclock : s.params.cpuClockHz = some hz)
    (h : wholeCall ms s = .next t) : t.call = none ∧ t.params.cpuClockHz = some hz ∧
      t.accCpu = fractionLeft (accumulate s.accCpu ms hz) ∧ t.accTmr = fractionLeft (accumulate s.accTmr ms 60) := by
  obtain ⟨u, hu, hcall, hcpu, htmr, hparams, -, -⟩ := hostCallKeepsRemainders s ms hz hs hclock
  cases h.symm.trans hu
  exact ⟨hcall, hparams ▸ hclock, hcpu, htmr⟩

/-- Counting after each call or once after all comes to the same (R231). -/
theorem wholeCycles_add (acc m : Nat) : wholeCycles acc + wholeCycles (fractionLeft acc + m) = wholeCycles (acc + m) := by
  simp only [wholeCycles, fractionLeft]
  omega

theorem fractionLeft_add (acc m : Nat) : fractionLeft (fractionLeft acc + m) = fractionLeft (acc + m) :=
  Nat.mod_add_mod acc 1000 m

theorem accumulate_add_sum (acc ms hz : Nat) (rest : List Nat) :
    accumulate acc ms hz + rest.sum * hz = acc + (ms :: rest).sum * hz := by
  rw [List.sum_cons, Nat.add_mul, accumulate, Nat.add_assoc]

/-- The cycles counted are the whole cycles of the total time (R231). -/
theorem cyclesCounted_eq (hz : Nat) (calls : List Nat) {acc : Nat} (h : acc < 1000) :
    cyclesCounted hz acc calls = wholeCycles (acc + calls.sum * hz) := by
  induction calls generalizing acc with
  | nil => simp [cyclesCounted, wholeCycles, Nat.div_eq_of_lt h]
  | cons ms rest ih =>
    rw [cyclesCounted, ih (fractionLeft_lt _), wholeCycles_add, accumulate_add_sum]

/-- The accumulators hold what the total time leaves over (R231). -/
theorem runCalls_accumulators {hz : Nat} {calls : List Nat} {s t : State} (hclock : s.params.cpuClockHz = some hz)
    (hcpu : s.accCpu < 1000) (htmr : s.accTmr < 1000) (h : runCalls calls s = .next t) (ht : t.status = .running) :
    t.accCpu = fractionLeft (s.accCpu + calls.sum * hz) ∧ t.accTmr = fractionLeft (s.accTmr + calls.sum * 60) := by
  induction calls generalizing s with
  | nil => cases h; simp [fractionLeft, Nat.mod_eq_of_lt, hcpu, htmr]
  | cons ms rest ih =>
    obtain ⟨u, hu, hrest⟩ := runCalls_cons h
    obtain ⟨-, hclock', ecpu, etmr⟩ := wholeCall_leaves (running_of_runCalls h ht) hclock hu
    have hlast := ih hclock' (ecpu ▸ fractionLeft_lt _) (etmr ▸ fractionLeft_lt _) hrest
    rwa [ecpu, etmr, fractionLeft_add, fractionLeft_add, accumulate_add_sum, accumulate_add_sum] at hlast

@[simp] theorem State.accounted_status (s : State) (hz ms : Nat) : (s.accounted hz ms).status = s.status := by
  obtain ⟨-, -, h⟩ | ⟨-, -, h⟩ | ⟨-, h⟩ := s.orderSettled_cases <;> simp [State.accounted, h]

/-- A call starts alike under another queue (R231). -/
theorem startCall_setInputs (s : State) (hz ms : Nat) (q : List HostAction) :
    startCall hz ms (s.setInputs q) = (s.accounted hz ms).under (s.counted hz ms).orDone q := by
  cases h : s.params.timerBlockOrder <;>
    simp only [startCall, State.accounted, State.counted, State.orderSettled, State.timersFirst, State.setInputs_params,
      h] <;> rfl

/-- A queued host call after which the engine runs takes one step to start and one for each cycle it counts. -/
theorem run_hostCall {ms hz : Nat} {s t : State} (q : List HostAction) (hs : s.status = .running)
    (hclock : s.params.cpuClockHz = some hz) (hcall : s.call = none) (h : wholeCall ms s = .next t)
    (ht : t.status = .running) :
    core.run ((s.counted hz ms).cpu + (s.counted hz ms).tmr + 1) (s.setInputs (.hostCall ms :: q)) =
      .next (t.setInputs q) := by
  have hstep : step (s.setInputs (.hostCall ms :: q)) = .next ((s.accounted hz ms).under (s.counted hz ms).orDone q) := by
    rw [step_of_call_none ((s.setInputs_call _).trans hcall), hostTurn_of_action rfl, ← startCall_setInputs]
    exact hostCall_of_running ms hs hclock
  obtain ⟨k, u, -, hrun, hblocks, hall⟩ := run_call _ (s.accounted hz ms) (s.counted hz ms) q (by simp [hs]) rfl
  cases (h.symm.trans (wholeCall_of_running ms hs hclock)).trans hblocks
  rw [run_succ _ hstep, ← hall ht, hrun, State.under_none (wholeCall_leaves hs hclock h).1]

/-- Queued host calls after which the engine runs take one step each and one for each cycle they count. -/
theorem run_hostCalls {hz : Nat} {calls : List Nat} {s t : State} (hclock : s.params.cpuClockHz = some hz)
    (hcall : s.call = none) (h : runCalls calls s = .next t) (ht : t.status = .running) :
    core.run (calls.length + cyclesCounted hz s.accCpu calls + cyclesCounted 60 s.accTmr calls)
      (s.setInputs (calls.map .hostCall)) = .next (t.setInputs []) := by
  induction calls generalizing s with
  | nil => cases h; rfl
  | cons ms rest ih =>
    obtain ⟨u, hu, hrest⟩ := runCalls_cons h
    have hs := running_of_runCalls h ht
    obtain ⟨hcall', hclock', ecpu, etmr⟩ := wholeCall_leaves hs hclock hu
    have hlast := ih hclock' hcall' hrest
    rw [ecpu, etmr] at hlast
    have hfirst := coreRun_add (rest.length + cyclesCounted hz (fractionLeft (accumulate s.accCpu ms hz)) rest +
      cyclesCounted 60 (fractionLeft (accumulate s.accTmr ms 60)) rest)
      (run_hostCall (rest.map .hostCall) hs hclock hcall hu (running_of_runCalls hrest ht))
    rw [← hlast, ← hfirst]
    congr 1
    simp only [cyclesCounted, State.counted, Config.timerHz, List.length_cons]
    omega

/-- Settles O52: the counts and the accumulators of each call add up to those of the total time, and the steps to the counts. -/
theorem longRunCountsAreExact : Obligations.LongRunCountsAreExact := by
  intro calls s t hz hclock hcpu htmr h ht
  have hcountCpu : cyclesCounted hz s.accCpu calls = calls.sum * hz / 1000 := by
    rw [cyclesCounted_eq hz calls (by omega), hcpu, Nat.zero_add, wholeCycles]
  have hcountTmr : cyclesCounted 60 s.accTmr calls = calls.sum * 60 / 1000 := by
    rw [cyclesCounted_eq 60 calls (by omega), htmr, Nat.zero_add, wholeCycles]
  obtain ⟨ecpu, etmr⟩ := runCalls_accumulators hclock (by omega) (by omega) h ht
  rw [hcpu, Nat.zero_add, fractionLeft] at ecpu
  rw [htmr, Nat.zero_add, fractionLeft] at etmr
  refine ⟨hcountCpu, hcountTmr, ecpu, etmr, fun hcall => ?_⟩
  rw [← hcountCpu, ← hcountTmr]
  exact run_hostCalls hclock hcall h ht

end Sys2Proof.Machine
end

section
/-! SUPPORT. Obligations of spec/70_reset_and_hazards.md: what a ROM load answers for each source (R252 to R254), and what memory
reads after one that succeeds (R251, R256). -/

namespace Sys2Proof.Machine

/-! ### The answer of a load -/

theorem loadRom_of_readFailure (s : State) : loadRom none s = .next (s.failedLoad .romReadFailure) := rfl

theorem loadRom_of_tooLarge (s : State) {rom : List Byte} (h : Config.romMax < rom.length) :
    loadRom (some rom) s = .next (s.failedLoad (.romTooLarge rom.length)) := if_pos h

theorem loadRom_of_fits (s : State) {rom : List Byte} (h : rom.length ≤ Config.romMax) :
    loadRom (some rom) s = .next (s.loadedWith rom) := if_neg (Nat.not_lt.mpr h)

/-- Settles O56: both failures answer with the failed load, whose status is its fault's. -/
theorem failedLoadHalts : Obligations.FailedLoadHalts := fun s _ =>
  ⟨⟨_, loadRom_of_readFailure s, s.failedLoad_status _⟩, fun h => ⟨_, loadRom_of_tooLarge s h, s.failedLoad_status _⟩⟩

/-! ### Memory after a load -/

/-- A reset for a load leaves the font of the parameters at its place and every other byte as unlisted (R251). -/
theorem State.resetForLoad_read (s : State) (a : Nat) :
    s.resetForLoad.mem.read a =
      if 0x050 ≤ a ∧ a < 0x050 + 80 then s.params.font.toList.getD (a - 0x050) 0 else Memory.unlisted a := by
  have hlen : s.params.font.toList.length = 80 := Vector.length_toList
  have hread := Memory.read_writeBytes [] Config.fontBase s.params.font.toList a (by rw [hlen]; decide)
  rwa [hlen] at hread

theorem State.resetForLoad_read_font (s : State) {k : Nat} (hk : k < 80) :
    s.resetForLoad.mem.read (0x050 + k) = s.params.font[k] := by
  rw [State.resetForLoad_read, if_pos (by omega), Nat.add_sub_cancel_left, List.getD_eq_getElem _ _ (by simpa using hk),
    Vector.getElem_toList]

theorem State.resetForLoad_read_of_outside_font (s : State) {a : Nat} (h : a < 0x050 ∨ 0x09F < a) :
    s.resetForLoad.mem.read a = 0 := by
  rw [State.resetForLoad_read, if_neg (by omega), Memory.unlisted_of_outside_font h]

/-- A ROM that fits stands from 0x200, and every other byte is as the reset left it (R252). -/
theorem State.loadedWith_read (s : State) {rom : List Byte} (h : rom.length ≤ 3584) (a : Nat) :
    (s.loadedWith rom).mem.read a =
      if 0x200 ≤ a ∧ a < 0x200 + rom.length then rom.getD (a - 0x200) 0 else s.resetForLoad.mem.read a :=
  Memory.read_writeBytes s.resetForLoad.mem Config.romBase rom a (by simp only [Config.romBase, Config.memSize]; omega)

theorem State.loadedWith_read_rom (s : State) {rom : List Byte} (h : rom.length ≤ 3584) {k : Nat} (hk : k < rom.length) :
    (s.loadedWith rom).mem.read (0x200 + k) = rom[k] := by
  rw [s.loadedWith_read h, if_pos (by omega), Nat.add_sub_cancel_left, List.getD_eq_getElem _ _ hk]

theorem State.loadedWith_read_of_outside_rom (s : State) {rom : List Byte} (h : rom.length ≤ 3584) {a : Nat}
    (ha : a < 0x200 ∨ 0x200 + rom.length ≤ a) : (s.loadedWith rom).mem.read a = s.resetForLoad.mem.read a := by
  rw [s.loadedWith_read h, if_neg (by omega)]

/-- Settles O55: the load answers with the loaded state, whose elements other than memory are those of the reset state, and whose
ROM lies above the font. -/
theorem loadResetsAndCopiesRom : Obligations.LoadResetsAndCopiesRom := by
  intro s rom hrom
  obtain ⟨hpc, hI, hsp, hDT, hST, hdirty, hcpu, htmr, hlog, -, hcall, hV, hstack, hkeys, hfb, -, -⟩ :=
    resetHoldsTheTablesValues
  refine ⟨_, loadRom_of_fits s hrom, s.loadedWith_status rom, hpc, hI, hsp, hDT, hST, hdirty, hcpu, htmr, hlog, hcall,
    s.loadedWith_params rom, hV, hstack, hkeys, hfb, fun k hk => ?font, fun k hk => s.loadedWith_read_rom hrom hk,
    fun a _ hfont hout => ?elsewhere⟩
  case font => rw [s.loadedWith_read_of_outside_rom hrom (by omega), s.resetForLoad_read_font hk]
  case elsewhere => rw [s.loadedWith_read_of_outside_rom hrom hout, s.resetForLoad_read_of_outside_font hfont]

end Sys2Proof.Machine
end
